-- ==== Sys2Proof/Word.lean ====
section
/-! DEFINITION. The widths of the hardware's values (spec 00_scope.md R10, R12). -/

namespace Sys2Proof

/-- A memory byte, a general register, a timer: 8 bits, unsigned (R10, R12). -/
abbrev Byte := BitVec 8

/-- PC, I, a return address, an opcode: 16 bits, unsigned (R10). -/
abbrev Word := BitVec 16

/-- A register index 0x0–0xF (10_state.md R20). -/
abbrev Reg := Fin 16

/-- Register VF, which is also the flag register (10_state.md R21). -/
def vf : Reg := 15

end Sys2Proof
end

