-- ==== Sys2Proof/Machine/Flags.lean ====
section
/-! DEFINITION. The values written to the flag register VF (spec 40_alu.md R108–R114). -/

namespace Sys2Proof.Machine

/-- A flag as the byte VF receives: 1 or 0 (R114). -/
def flagByte (b : Bool) : Byte := if b then 1 else 0

/-- 8XY4: 1 if the unwrapped sum exceeds 255, else 0 (R108). -/
def carryFlag (a b : Byte) : Byte := flagByte (decide (255 < a.toNat + b.toNat))

/-- 8XY5 and 8XY7: 0 if `minuend − subtrahend` would be negative, else 1 (R110, R111). -/
def notBorrowFlag (minuend subtrahend : Byte) : Byte :=
  flagByte (!decide (minuend.toNat < subtrahend.toNat))

/-- 8XY6: the bit shifted out, bit 0 before the shift (R112). -/
def shiftRightFlag (a : Byte) : Byte := flagByte (a.getLsbD 0)

/-- 8XYE: the bit shifted out, bit 7 before the shift (R113). -/
def shiftLeftFlag (a : Byte) : Byte := flagByte (a.getLsbD 7)

/-- DXYN: the collision flag (42_display.md R175). -/
def collisionFlag (collide : Bool) : Byte := flagByte collide

end Sys2Proof.Machine
end

