-- ==== Sys2Proof/Syntax.lean ====
section
/-! DEFINITION. The 25 instructions of the opcode map (spec 30_encoding.md R80), one constructor per row of
spec/opcode_table.json, with the operands of R74. -/

namespace Sys2Proof

/-- One instruction. `x` and `y` are register indices, `nn` the immediate byte, `nnn` the 12-bit address, `n` the
number of sprite rows (R74). The Y field of the shifts is kept, though they ignore it (R81). -/
inductive Instr where
  /-- 00E0 CLS (R170). -/
  | cls
  /-- 00EE RET (R141). -/
  | ret
  /-- 1NNN JP addr (R144). -/
  | jp (nnn : BitVec 12)
  /-- 2NNN CALL addr (R143). -/
  | call (nnn : BitVec 12)
  /-- 3XNN SE Vx, byte (R145). -/
  | seImm (x : Reg) (nn : Byte)
  /-- 4XNN SNE Vx, byte (R146). -/
  | sneImm (x : Reg) (nn : Byte)
  /-- 5XY0 SE Vx, Vy (R147). -/
  | seReg (x y : Reg)
  /-- 6XNN LD Vx, byte (R100). -/
  | ldImm (x : Reg) (nn : Byte)
  /-- 7XNN ADD Vx, byte (R101). -/
  | addImm (x : Reg) (nn : Byte)
  /-- 8XY0 LD Vx, Vy (R103). -/
  | ldReg (x y : Reg)
  /-- 8XY1 OR Vx, Vy (R104). -/
  | orReg (x y : Reg)
  /-- 8XY2 AND Vx, Vy (R105). -/
  | andReg (x y : Reg)
  /-- 8XY3 XOR Vx, Vy (R106). -/
  | xorReg (x y : Reg)
  /-- 8XY4 ADD Vx, Vy (R108). -/
  | addReg (x y : Reg)
  /-- 8XY5 SUB Vx, Vy (R110). -/
  | subReg (x y : Reg)
  /-- 8XY6 SHR Vx, Vy (R112). -/
  | shrReg (x y : Reg)
  /-- 8XY7 SUBN Vx, Vy (R111). -/
  | subnReg (x y : Reg)
  /-- 8XYE SHL Vx, Vy (R113). -/
  | shlReg (x y : Reg)
  /-- 9XY0 SNE Vx, Vy (R148). -/
  | sneReg (x y : Reg)
  /-- ANNN LD I, addr (R120). -/
  | ldI (nnn : BitVec 12)
  /-- BNNN JP V0, addr (R150). -/
  | jpV0 (nnn : BitVec 12)
  /-- CXNN RND Vx, byte (R130). -/
  | rnd (x : Reg) (nn : Byte)
  /-- DXYN DRW Vx, Vy, nibble (R171). -/
  | drw (x y : Reg) (n : Nat)
  /-- EX9E SKP Vx (R152). -/
  | skp (x : Reg)
  /-- EXA1 SKNP Vx (R153). -/
  | sknp (x : Reg)
  deriving DecidableEq, Repr

/-- The row of spec/opcode_table.json an instruction stands for. -/
def Instr.mnemonic : Instr → String
  | .cls => "CLS"
  | .ret => "RET"
  | .jp _ => "JP_addr"
  | .call _ => "CALL_addr"
  | .seImm _ _ => "SE_Vx__byte"
  | .sneImm _ _ => "SNE_Vx__byte"
  | .seReg _ _ => "SE_Vx__Vy"
  | .ldImm _ _ => "LD_Vx__byte"
  | .addImm _ _ => "ADD_Vx__byte"
  | .ldReg _ _ => "LD_Vx__Vy"
  | .orReg _ _ => "OR_Vx__Vy"
  | .andReg _ _ => "AND_Vx__Vy"
  | .xorReg _ _ => "XOR_Vx__Vy"
  | .addReg _ _ => "ADD_Vx__Vy"
  | .subReg _ _ => "SUB_Vx__Vy"
  | .shrReg _ _ => "SHR_Vx____Vy"
  | .subnReg _ _ => "SUBN_Vx__Vy"
  | .shlReg _ _ => "SHL_Vx____Vy"
  | .sneReg _ _ => "SNE_Vx__Vy"
  | .ldI _ => "LD_I__addr"
  | .jpV0 _ => "JP_V0__addr"
  | .rnd _ _ => "RND_Vx__byte"
  | .drw _ _ _ => "DRW_Vx__Vy__nibble"
  | .skp _ => "SKP_Vx"
  | .sknp _ => "SKNP_Vx"

end Sys2Proof
end

