-- ==== Sys2Proof/Decode.lean ====
section
/-! DEFINITION. The fields of an opcode, the decoder, the encoder and the opcode table (spec 30_encoding.md). -/

namespace Sys2Proof

/-! The fields of R73 (widths and places in R70). -/

/-- F = op[15:12], the instruction family. -/
def fieldF (op : Word) : BitVec 4 := op.extractLsb' 12 4

/-- X = op[11:8], a register index. -/
def fieldX (op : Word) : Reg := (op.extractLsb' 8 4).toFin

/-- Y = op[7:4], a register index. -/
def fieldY (op : Word) : Reg := (op.extractLsb' 4 4).toFin

/-- N = op[3:0]. -/
def fieldN (op : Word) : BitVec 4 := op.extractLsb' 0 4

/-- NN = op[7:0]. -/
def fieldNN (op : Word) : Byte := op.extractLsb' 0 8

/-- NNN = op[11:0]. -/
def fieldNNN (op : Word) : BitVec 12 := op.extractLsb' 0 12

/-- What a word is: an instruction, the null word, or unknown; there is no fourth kind (R87). -/
inductive Decoded where
  /-- One of the 25 instructions of R80. -/
  | instr (i : Instr)
  /-- The word 0x0000, which raises VacantMemory (R84). -/
  | vacantMemory
  /-- A word that matches no row, which raises UnknownInstruction (R85, R86). -/
  | unknownInstruction
  deriving DecidableEq, Repr

/-- Families 0x0: an exact match of the whole word (R75, R85; notes/assumptions/18.md). -/
def decodeFamily0 (op : Word) : Decoded :=
  if op = 0x00E0#16 then .instr .cls
  else if op = 0x00EE#16 then .instr .ret
  else .unknownInstruction

/-- Family 0x8: sub-dispatch on N (R75). -/
def decodeFamily8 (op : Word) : Decoded :=
  let x := fieldX op
  let y := fieldY op
  match (fieldN op).toNat with
  | 0x0 => .instr (.ldReg x y)
  | 0x1 => .instr (.orReg x y)
  | 0x2 => .instr (.andReg x y)
  | 0x3 => .instr (.xorReg x y)
  | 0x4 => .instr (.addReg x y)
  | 0x5 => .instr (.subReg x y)
  | 0x6 => .instr (.shrReg x y)
  | 0x7 => .instr (.subnReg x y)
  | 0xE => .instr (.shlReg x y)
  | _ => .unknownInstruction

/-- Family 0xE: sub-dispatch on NN (R75). -/
def decodeFamilyE (op : Word) : Decoded :=
  if fieldNN op = 0x9E#8 then .instr (.skp (fieldX op))
  else if fieldNN op = 0xA1#8 then .instr (.sknp (fieldX op))
  else .unknownInstruction

/-- The decode function, total on all 65536 words (R75). The null word is checked before the family (R84). -/
def decode (op : Word) : Decoded :=
  if op = 0x0000#16 then .vacantMemory
  else match (fieldF op).toNat with
  | 0x0 => decodeFamily0 op
  | 0x1 => .instr (.jp (fieldNNN op))
  | 0x2 => .instr (.call (fieldNNN op))
  | 0x3 => .instr (.seImm (fieldX op) (fieldNN op))
  | 0x4 => .instr (.sneImm (fieldX op) (fieldNN op))
  | 0x5 => if fieldN op = 0#4 then .instr (.seReg (fieldX op) (fieldY op)) else .unknownInstruction
  | 0x6 => .instr (.ldImm (fieldX op) (fieldNN op))
  | 0x7 => .instr (.addImm (fieldX op) (fieldNN op))
  | 0x8 => decodeFamily8 op
  | 0x9 => if fieldN op = 0#4 then .instr (.sneReg (fieldX op) (fieldY op)) else .unknownInstruction
  | 0xA => .instr (.ldI (fieldNNN op))
  | 0xB => .instr (.jpV0 (fieldNNN op))
  | 0xC => .instr (.rnd (fieldX op) (fieldNN op))
  | 0xD => .instr (.drw (fieldX op) (fieldY op) (fieldN op).toNat)
  | 0xE => decodeFamilyE op
  | _ => .unknownInstruction

/-! Byte order: a word is stored big-endian, bits 15:8 at the lower address (20_memory.md R55). -/

/-- The opcode that two consecutive bytes make, the byte at the lower address first (R55). -/
def wordOfBytes (hi lo : Byte) : Word := hi ++ lo

/-- The byte of a word stored at the lower address: bits 15:8 (R55). -/
def hiByte (op : Word) : Byte := op.extractLsb' 8 8

/-- The byte of a word stored at the higher address: bits 7:0 (R55). -/
def loByte (op : Word) : Byte := op.extractLsb' 0 8

/-- The instruction the decoder reads from a word numbered as spec/opcode_table.json numbers it, of which the table
gives `nbits` bits. The word is laid out as memory stores it (R55) and read back from those bytes. A number that does
not fit in one 16-bit word is no instruction of this hardware (R70, R88). -/
def decodeTableWord (nbits w : Nat) : Option Instr :=
  if w < 2 ^ nbits ∧ w < 2 ^ 16 then
    let op := BitVec.ofNat 16 w
    match decode (wordOfBytes (hiByte op) (loByte op)) with
    | .instr i => some i
    | .vacantMemory => none
    | .unknownInstruction => none
  else none

/-! The encoder, from the match column of R80 and the field places of R70. -/

/-- F, X, Y and N side by side: the layout of R70. -/
def wordXYN (f : BitVec 4) (x y : Reg) (n : BitVec 4) : Word :=
  f ++ (BitVec.ofFin x : BitVec 4) ++ (BitVec.ofFin y : BitVec 4) ++ n

/-- F, X and NN side by side (R70). -/
def wordXNN (f : BitVec 4) (x : Reg) (nn : Byte) : Word :=
  f ++ (BitVec.ofFin x : BitVec 4) ++ nn

/-- F and NNN side by side (R70). -/
def wordNNN (f : BitVec 4) (nnn : BitVec 12) : Word := f ++ nnn

/-- The word of an instruction (R80). -/
def encode : Instr → Word
  | .cls => 0x00E0#16
  | .ret => 0x00EE#16
  | .jp nnn => wordNNN 0x1 nnn
  | .call nnn => wordNNN 0x2 nnn
  | .seImm x nn => wordXNN 0x3 x nn
  | .sneImm x nn => wordXNN 0x4 x nn
  | .seReg x y => wordXYN 0x5 x y 0x0
  | .ldImm x nn => wordXNN 0x6 x nn
  | .addImm x nn => wordXNN 0x7 x nn
  | .ldReg x y => wordXYN 0x8 x y 0x0
  | .orReg x y => wordXYN 0x8 x y 0x1
  | .andReg x y => wordXYN 0x8 x y 0x2
  | .xorReg x y => wordXYN 0x8 x y 0x3
  | .addReg x y => wordXYN 0x8 x y 0x4
  | .subReg x y => wordXYN 0x8 x y 0x5
  | .shrReg x y => wordXYN 0x8 x y 0x6
  | .subnReg x y => wordXYN 0x8 x y 0x7
  | .shlReg x y => wordXYN 0x8 x y 0xE
  | .sneReg x y => wordXYN 0x9 x y 0x0
  | .ldI nnn => wordNNN 0xA nnn
  | .jpV0 nnn => wordNNN 0xB nnn
  | .rnd x nn => wordXNN 0xC x nn
  | .drw x y n => wordXYN 0xD x y (BitVec.ofNat 4 n)
  | .skp x => wordXNN 0xE x 0x9E
  | .sknp x => wordXNN 0xE x 0xA1

/-! The opcode map of R80 as data. -/

/-- One row of the opcode map: a word `op` is the instruction if `op &&& mask = pattern` (R80). -/
structure OpcodeRow where
  mnemonic : String
  pattern : Word
  mask : Word
  deriving DecidableEq, Repr

/-- Whether a word matches a row (R80). -/
def OpcodeRow.matchesWord (r : OpcodeRow) (op : Word) : Bool := op &&& r.mask == r.pattern

/-- The rows of families 0x0 to 0x7 (R80). -/
def opcodeRowsLow : List OpcodeRow := [
  ⟨"CLS", 0x00E0, 0xFFFF⟩, ⟨"RET", 0x00EE, 0xFFFF⟩, ⟨"JP_addr", 0x1000, 0xF000⟩, ⟨"CALL_addr", 0x2000, 0xF000⟩,
  ⟨"SE_Vx__byte", 0x3000, 0xF000⟩, ⟨"SNE_Vx__byte", 0x4000, 0xF000⟩, ⟨"SE_Vx__Vy", 0x5000, 0xF00F⟩,
  ⟨"LD_Vx__byte", 0x6000, 0xF000⟩, ⟨"ADD_Vx__byte", 0x7000, 0xF000⟩]

/-- The rows of family 0x8 (R80). -/
def opcodeRows8 : List OpcodeRow := [
  ⟨"LD_Vx__Vy", 0x8000, 0xF00F⟩, ⟨"OR_Vx__Vy", 0x8001, 0xF00F⟩, ⟨"AND_Vx__Vy", 0x8002, 0xF00F⟩,
  ⟨"XOR_Vx__Vy", 0x8003, 0xF00F⟩, ⟨"ADD_Vx__Vy", 0x8004, 0xF00F⟩, ⟨"SUB_Vx__Vy", 0x8005, 0xF00F⟩,
  ⟨"SHR_Vx____Vy", 0x8006, 0xF00F⟩, ⟨"SUBN_Vx__Vy", 0x8007, 0xF00F⟩, ⟨"SHL_Vx____Vy", 0x800E, 0xF00F⟩]

/-- The rows of families 0x9 to 0xE (R80). -/
def opcodeRowsHigh : List OpcodeRow := [
  ⟨"SNE_Vx__Vy", 0x9000, 0xF00F⟩, ⟨"LD_I__addr", 0xA000, 0xF000⟩, ⟨"JP_V0__addr", 0xB000, 0xF000⟩,
  ⟨"RND_Vx__byte", 0xC000, 0xF000⟩, ⟨"DRW_Vx__Vy__nibble", 0xD000, 0xF000⟩, ⟨"SKP_Vx", 0xE09E, 0xF0FF⟩,
  ⟨"SKNP_Vx", 0xE0A1, 0xF0FF⟩]

/-- The 25 rows of the opcode map (R80). -/
def opcodeTable : List OpcodeRow := opcodeRowsLow ++ opcodeRows8 ++ opcodeRowsHigh

end Sys2Proof
end

