-- ==== Sys2Proof/Config.lean ====
section
/-! DEFINITION. The parameters of spec 00_scope.md R11, this hardware's values of them, and the free value of CXNN. -/

namespace Sys2Proof

/-- EMPTY_RET_POLICY: what 00EE does on an empty stack (41_control_flow.md R142). -/
inductive EmptyRetPolicy where
  /-- PC ← 0, SP stays 0. -/
  | fallbackZero
  /-- Raise StackUnderflow. -/
  | fault
  deriving DecidableEq, Repr

/-- TIMER_UNDERFLOW: what a decrement of a timer at 0 does (60_exceptions.md R226). -/
inductive TimerUnderflow where
  /-- 0 stays 0. -/
  | saturate
  /-- 0 becomes 0xFF. -/
  | wrap
  deriving DecidableEq, Repr

/-- QUIRK_VARIANT: the policy for 8XY6, 8XYE and BNNN. It has exactly one admitted value; any other
is refused by having no constructor (00_scope.md R9, 92 D36; notes/assumptions/14.md). -/
inductive QuirkVariant where
  /-- Shifts ignore Y; BNNN adds V0. -/
  | rite
  deriving DecidableEq, Repr

/-- The named parameters a machine takes as arguments (00_scope.md R11). IPT and TICK_RATE are the host's pacing, which
R8 puts out of scope. -/
structure Params where
  /-- FONT, 80 bytes (10_state.md R38). -/
  font : Vector Byte 80
  /-- RAND, the byte of each draw in turn; no law is assumed of it (40_alu.md R131). -/
  rand : Nat → Byte
  /-- TIMER_UNDERFLOW (60_exceptions.md R226). -/
  timerUnderflow : TimerUnderflow
  /-- EMPTY_RET_POLICY (41_control_flow.md R142). -/
  emptyRetPolicy : EmptyRetPolicy
  /-- QUIRK_VARIANT (R9). -/
  quirkVariant : QuirkVariant

namespace Config

/-- This hardware's EMPTY_RET_POLICY (R11, R142). DESIGN CHOICE of the spec (92 D8; notes/assumptions/6.md). -/
def emptyRetPolicy : EmptyRetPolicy := .fallbackZero

/-- This hardware's TIMER_UNDERFLOW (R11, R226). DESIGN CHOICE of the spec (92 D12; notes/assumptions/7.md). -/
def timerUnderflow : TimerUnderflow := .saturate

/-- This hardware's QUIRK_VARIANT (R9, R11). -/
def quirkVariant : QuirkVariant := .rite

/-- FONT, the 16 glyphs of 5 bytes (10_state.md R38). Glyph 0 is the source's; glyphs 1–F are PRESUMED:
the spec itself takes them from general knowledge (notes/assumptions/5.md). -/
def font : List Byte :=
  [0xF0, 0x90, 0x90, 0x90, 0xF0] ++ [0x20, 0x60, 0x20, 0x20, 0x70] ++
  [0xF0, 0x10, 0xF0, 0x80, 0xF0] ++ [0xF0, 0x10, 0xF0, 0x10, 0xF0] ++
  [0x90, 0x90, 0xF0, 0x10, 0x10] ++ [0xF0, 0x80, 0xF0, 0x10, 0xF0] ++
  [0xF0, 0x80, 0xF0, 0x90, 0xF0] ++ [0xF0, 0x10, 0x20, 0x40, 0x40] ++
  [0xF0, 0x90, 0xF0, 0x90, 0xF0] ++ [0xF0, 0x90, 0xF0, 0x10, 0xF0] ++
  [0xF0, 0x90, 0xF0, 0x90, 0x90] ++ [0xE0, 0x90, 0xE0, 0x90, 0xE0] ++
  [0xF0, 0x80, 0x80, 0x80, 0xF0] ++ [0xE0, 0x90, 0x90, 0x90, 0xE0] ++
  [0xF0, 0x80, 0xF0, 0x80, 0xF0] ++ [0xF0, 0x80, 0xF0, 0x80, 0x80]

/-- RAND: the byte of the n-th draw of CXNN, a free value with no law (40_alu.md R131; notes/assumptions/3.md). -/
opaque rand : Nat → Byte

/-- The parameters of this hardware: the "value in this spec" column of R11, and the free draw. -/
def params : Params where
  font := ⟨⟨font⟩, rfl⟩
  rand := rand
  timerUnderflow := timerUnderflow
  emptyRetPolicy := emptyRetPolicy
  quirkVariant := quirkVariant

end Config

end Sys2Proof
end

