-- ==== Sys2Proof/Machine/State.lean ====
section
/-! DEFINITION. The state of the Machine (spec 10_state.md), the ways an operation can stop, and the state after RESET. -/

namespace Sys2Proof.Machine

/-- A fault that stops the machine. This hardware has none: every error of 60_exceptions.md R210 is a NEXT state with
FAULT latched (R214–R216; notes/assumptions/1.md), so the type has no constructor. -/
inductive Fault
  deriving DecidableEq, Repr

/-- A host operation, or an instruction, to which the model gives no meaning. -/
inductive Refusal where
  /-- An instruction whose arm of `exec` has no meaning yet; raised by no arm of this model. Safe. -/
  | notModelled (mnemonic : String)
  /-- LOAD presented while LOADABLE = 0 or FAULT ≠ 0, raised by `hostLoad` (43_host_interface.md R192, 60 R216).
  Safe: the spec gives the transaction no meaning. -/
  | loadNotAccepted
  /-- KEY with an index above 15, raised by `hostKey` (43_host_interface.md R195). Safe: the spec refuses it. -/
  | keyIndexOutOfRange (k : Nat)
  deriving DecidableEq, Repr

/-- The error kinds with the diagnostic values that 60_exceptions.md R211 lets a model carry: `addr` the address A of the
instruction (the PC before the fetch), `op` the opcode, `bad` the faulting address, `n` the image length. -/
inductive ErrorInfo where
  /-- 2NNN with SP = 16 (41_control_flow.md R143). -/
  | stackOverflow (addr op : Word)
  /-- LOAD of more than 3584 bytes (43_host_interface.md R191). -/
  | loadingError (n : Nat)
  /-- The opcode 0x0000 (30_encoding.md R84). -/
  | vacantMemory (addr op : Word)
  /-- An opcode that matches no row (30_encoding.md R85, R86). -/
  | unknownInstruction (addr op : Word)
  /-- A fetch above 0xFFF (30_encoding.md R71). -/
  | fetchAddressFault (addr bad : Word)
  /-- A sprite row above 0xFFF (42_display.md R172). -/
  | drawAddressFault (addr op bad : Word)
  /-- 00EE on an empty stack under EMPTY_RET_POLICY = FAULT (41_control_flow.md R142). -/
  | stackUnderflow (addr op : Word)
  deriving DecidableEq, Repr

/-- Memory as (address, byte) pairs, addresses strictly rising; an address that is not listed reads as RESET left it
(notes/assumptions/17.md). -/
abbrev Memory := List Host.Cell

/-- The framebuffer: 32 rows of 64 one-bit pixels, `fb[y][x]` (10_state.md R31). -/
abbrev Screen := Vector (Vector Bool 64) 32

/-- The Machine's state (10_state.md), under the spec's names. -/
structure State where
  /-- V0–VF (R20). -/
  v : Vector Byte 16
  /-- PC (R24). -/
  pc : Word
  /-- I (R27). -/
  i : Word
  /-- SP, the number of live stack entries, 0..16 (R28). -/
  sp : Nat
  /-- STACK[0..15] (R28). -/
  stack : Vector Word 16
  /-- DT (R30). -/
  dt : Byte
  /-- ST (R30). -/
  st : Byte
  /-- FB (R31). -/
  fb : Screen
  /-- KEY[0..15], true when pressed (R32). -/
  key : Vector Bool 16
  /-- MEM (R37). -/
  mem : Memory
  /-- FAULT, 3 bits (R35). -/
  fault : BitVec 3
  /-- LOADABLE (R36). -/
  loadable : Bool
  /-- The model's own: the diagnostics of the latched error (60_exceptions.md R211; notes/assumptions/2.md). -/
  errorInfo : Option ErrorInfo
  /-- The model's own: how many CXNN draws were taken (40_alu.md R131; notes/assumptions/4.md). -/
  draws : Nat
  deriving DecidableEq, Repr

/-- The state after RESET (10_state.md R42, 70_reset_and_hazards.md R240). Memory lists nothing, since an unlisted
address reads as RESET leaves it: the font at 0x050–0x09F and 0 elsewhere. -/
def State.reset : State where
  v := Vector.replicate 16 0
  pc := 0x0200
  i := 0
  sp := 0
  stack := Vector.replicate 16 0
  dt := 0
  st := 0
  fb := Vector.replicate 32 (Vector.replicate 64 false)
  key := Vector.replicate 16 false
  mem := []
  fault := 0
  loadable := true
  errorInfo := none
  draws := 0

end Sys2Proof.Machine
end

