-- ==== Sys2Proof/Machine/Memory.lean ====
section
/-! DEFINITION. Reading and writing memory bytes in its canonical form (spec 20_memory.md, 10_state.md R37, R38). -/

namespace Sys2Proof.Machine

/-- The number of memory bytes; addresses are 0x000–0xFFF (R37). -/
def memorySize : Nat := 4096

/-- Where the font lies (R38; the end address 0x09F is 90_conflicts.md C1's). -/
def fontBase : Nat := 0x050

/-- What RESET leaves at an address for a given FONT: the font at 0x050–0x09F, 0 elsewhere (R42). -/
def fontAt (font : List Byte) (a : Nat) : Byte :=
  if fontBase ≤ a ∧ a < fontBase + 80 then font.getD (a - fontBase) 0 else 0

/-- What an unlisted address reads as: what RESET leaves there on this hardware (R42; notes/assumptions/17.md). -/
def resetByte (a : Nat) : Byte := fontAt Config.font a

/-- The canonical form: addresses strictly rising and inside the memory, and no listed byte equal to what the address
reads as when it is not listed. -/
abbrev Memory.wf (m : Memory) : Prop :=
  m.Pairwise (fun c d => c.1 < d.1) ∧ ∀ c ∈ m, c.1 < memorySize ∧ c.2 ≠ resetByte c.1

/-- MEM[a], for an address inside the memory (R13). -/
def Memory.read : Memory → Nat → Byte
  | [], a => resetByte a
  | (k, b) :: m, a => if k = a then b else Memory.read m a

/-- A listed cell put before `m`, unless an unlisted address already reads as that byte. -/
def Memory.consCell (a : Nat) (b : Byte) (m : Memory) : Memory :=
  if b = resetByte a then m else (a, b) :: m

/-- MEM[a] ← b (R14), keeping the canonical form. -/
def Memory.write : Memory → Nat → Byte → Memory
  | [], a, b => Memory.consCell a b []
  | (k, c) :: m, a, b =>
    if a < k then Memory.consCell a b ((k, c) :: m)
    else if a = k then Memory.consCell a b m
    else (k, c) :: Memory.write m a b

/-- Consecutive bytes written upwards from an address (43_host_interface.md R191). -/
def Memory.writeBytes : Memory → Nat → List Byte → Memory
  | m, _, [] => m
  | m, a, b :: bs => Memory.writeBytes (Memory.write m a b) (a + 1) bs

/-- The memory RESET leaves for a given FONT. For this hardware's it lists nothing (R42; notes/assumptions/17.md). -/
def fontMemory (font : Vector Byte 80) : Memory := Memory.writeBytes [] fontBase font.toList

/-- `MemRead(addr, 1)`: the byte, or none where the address passes 0xFFF and AddressFault is raised; an address never
wraps (20_memory.md R53, R54; notes/assumptions/11.md). -/
def memRead (m : Memory) (addr : Word) : Option Byte :=
  if addr.toNat < memorySize then some (Memory.read m addr.toNat) else none

end Sys2Proof.Machine
end

