-- ==== Sys2Proof/Machine/Ops.lean ====
section
/-! DEFINITION. The named operations over registers, stack and memory, error entry and the way back, fetch and STEP cycle. -/

namespace Sys2Proof.Machine

/-! Registers (10_state.md R20, R22). -/

/-- V[x] (R20). No register is hardwired. -/
def State.reg (s : State) (x : Reg) : Byte := s.v[x]

/-- V[x] ← b (R20). -/
def State.setReg (s : State) (x : Reg) (b : Byte) : State := { s with v := s.v.set x.val b x.isLt }

/-- V[x] ← result, then VF ← flag: VF is the last register written, so for x = 0xF it ends holding the flag (R22). -/
def State.setRegFlag (s : State) (x : Reg) (result flag : Byte) : State := (s.setReg x result).setReg vf flag

/-- PC ← target (R25). -/
def State.setPc (s : State) (target : Word) : State := { s with pc := target }

/-- I ← a (R27). -/
def State.setI (s : State) (a : Word) : State := { s with i := a }

/-- The whole framebuffer replaced (10_state.md R31). -/
def State.setFb (s : State) (fb : Screen) : State := { s with fb := fb }

/-- `Skip()`: PC ← (PC + 2) mod 2^16. It looks at no memory (41_control_flow.md R140). The fetch's own advance is the
same sum (30_encoding.md R72). -/
def State.skip (s : State) : State := s.setPc (s.pc + 2)

/-- Skip if the condition holds. -/
def State.skipIf (s : State) (c : Bool) : State := if c then s.skip else s

/-! The call stack (10_state.md R28, R29). -/

/-- STACK[SP] ← a, SP ← SP + 1. The caller has checked SP < 16 (R29). -/
def State.push (s : State) (a : Word) : State :=
  { s with stack := s.stack.setIfInBounds s.sp a, sp := s.sp + 1 }

/-- The entry on top, STACK[SP−1]. The caller has checked SP > 0 (R28). -/
def State.top (s : State) : Word := s.stack.getD (s.sp - 1) 0

/-- `PC ← Pop()`: SP ← SP − 1, PC ← STACK[SP]; the popped entry is dead and keeps its data (R29; notes/assumptions/16.md). -/
def State.popPc (s : State) : State := { s with sp := s.sp - 1, pc := s.top }

/-! Random draw (40_alu.md R131). -/

/-- The byte of the next draw, of a given RAND (R131; notes/assumptions/3.md). -/
def State.nextDraw (rand : Nat → Byte) (s : State) : Byte := rand s.draws

/-- One draw taken, so that the next one is another free value (R131). -/
def State.countDraw (s : State) : State := { s with draws := s.draws + 1 }

/-! Error entry and the way back (60_exceptions.md). -/

/-- The FAULT code of an error kind (10_state.md R35, R210). -/
def ErrorInfo.code : ErrorInfo → BitVec 3
  | .stackOverflow _ _ => 1
  | .loadingError _ => 2
  | .vacantMemory _ _ => 3
  | .unknownInstruction _ _ => 4
  | .fetchAddressFault _ _ => 5
  | .drawAddressFault _ _ _ => 5
  | .stackUnderflow _ _ => 6

/-- `raise E(info)`, the ONE error entry: FAULT ← the code of E, and nothing else of the machine changes. There is no
vector, no handler and no saved register (R214, R215). `errorInfo` is the model's own record (R211). -/
def raise (e : ErrorInfo) (s : State) : State := { s with fault := e.code, errorInfo := some e }

/-- The state after RESET for given parameters: FONT decides the memory (10_state.md R42). -/
def State.resetUnder (p : Params) : State := { State.reset with mem := fontMemory p.font }

/-- The way back to execution: only RESET clears FAULT (R216, R217). It accepts every state and gives every element its
reset value (70_reset_and_hazards.md R240); the count of draws, which is no state of the machine, goes on, so that no
law relates the draws before and after it (notes/assumptions/4.md). -/
def hostResetUnder (p : Params) (s : State) : State := { State.resetUnder p with draws := s.draws }

/-- The address A of the instruction being executed: PC holds A + 2 (10_state.md R24). -/
def State.instrAddr (s : State) : Word := s.pc - 2

/-! Fetch (30_encoding.md R71, R72). -/

/-- Fetch at PC: the opcode from MEM[PC] and MEM[PC + 1], big-endian, or the AddressFault of the first byte that lies
above 0xFFF (R71). -/
def fetch (s : State) : Except ErrorInfo Word :=
  match memRead s.mem s.pc with
  | none => .error (.fetchAddressFault s.pc s.pc)
  | some hi =>
    match memRead s.mem (s.pc + 1) with
    | none => .error (.fetchAddressFault s.pc (s.pc + 1))
    | some lo => .ok (wordOfBytes hi lo)

/-- PC ← (PC + 2) mod 2^16, after a successful fetch and before decode (R72). -/
def State.advancePc (s : State) : State := s.setPc (s.pc + 2)

/-- LOADABLE ← 0, by a LOAD or a STEP (10_state.md R36). -/
def State.closeLoad (s : State) : State := { s with loadable := false }

/-- The error of a word that is no instruction, raised at the advanced PC (30_encoding.md R84). -/
def raiseVacant (op : Word) (s : State) : State := raise (.vacantMemory s.instrAddr op) s

/-- The error of a word that matches no row, raised at the advanced PC (30_encoding.md R85). -/
def raiseUnknown (op : Word) (s : State) : State := raise (.unknownInstruction s.instrAddr op) s

/-- The STEP cycle of R76, for a given execute phase. A latched error makes it inert (60_exceptions.md R216);
LOADABLE ← 0; fetch; PC + 2; decode; execute. An error of any phase is a next state with FAULT latched (R214, R215). -/
def stepCycle (execute : Instr → State → Host.Outcome State Fault Refusal) (s : State) :
    Host.Outcome State Fault Refusal :=
  if s.fault ≠ 0 then .next s
  else
    match fetch s.closeLoad with
    | .error e => .next (raise e s.closeLoad)
    | .ok op =>
      match decode op with
      | .vacantMemory => .next (raiseVacant op s.closeLoad.advancePc)
      | .unknownInstruction => .next (raiseUnknown op s.closeLoad.advancePc)
      | .instr i => execute i s.closeLoad.advancePc

/-- The two bytes of a word stored big-endian from an address (20_memory.md R55). -/
def storeWord (m : Memory) (a : Nat) (op : Word) : Memory :=
  Memory.write (Memory.write m a (hiByte op)) (a + 1) (loByte op)

/-- The state made able to fetch: a latched error, which makes STEP inert (60_exceptions.md R216), is taken away, and a
PC from which no word can be fetched (R71) is put at the reset vector. Not a hardware operation; it serves
`State.withFetchWord` alone (notes/assumptions/20.md). -/
def State.readyToFetch (s : State) : State :=
  { s with
    fault := 0
    errorInfo := none
    pc := if s.pc.toNat < 0xFFF then s.pc else 0x0200 }

end Sys2Proof.Machine
end

