-- ==== Sys2Proof/Machine/Operands.lean ====
section
/-! DEFINITION. Operand assembly: how operands become values, addresses, coordinates and key flags (spec 30_encoding.md R74). -/

namespace Sys2Proof.Machine

/-- zext_16(NNN), as 1NNN, 2NNN, ANNN and BNNN use it (R74). -/
def addrOperand (nnn : BitVec 12) : Word := nnn.zeroExtend 16

/-- zext_16 of a register, the offset of BNNN (41_control_flow.md R150). -/
def zext16 (b : Byte) : Word := b.zeroExtend 16

/-- The value 8XY6 and 8XYE shift: V[X]; Y is ignored (40_alu.md R112, R113; 00_scope.md R9; notes/assumptions/14.md). -/
def shiftSource (q : QuirkVariant) (x _y : Reg) (s : State) : Byte :=
  match q with
  | .rite => s.reg x

/-- The offset BNNN adds: V0, whatever the X nibble holds (41_control_flow.md R150; 00_scope.md R9). -/
def jumpOffset (q : QuirkVariant) (_nnn : BitVec 12) (s : State) : Word :=
  match q with
  | .rite => zext16 (s.reg 0)

/-- The start column of DXYN: V[X] mod 64 (42_display.md R173). -/
def startColumn (s : State) (x : Reg) : Nat := (s.reg x).toNat % 64

/-- The start row of DXYN: V[Y] mod 32 (42_display.md R173). -/
def startRow (s : State) (y : Reg) : Nat := (s.reg y).toNat % 32

/-- KEY[k] for a valid index, none for k > 15: the bounds check comes before the index (41_control_flow.md R151). -/
def keyFlag (s : State) (k : Byte) : Option Bool :=
  if h : k.toNat < 16 then some (s.key[k.toNat]) else none

/-- The N sprite bytes from an address upwards, or the first row address above 0xFFF. Row r lies at I + r by the 16-bit
adder; all N rows are checked, those below the bottom edge too (42_display.md R172; notes/assumptions/12.md). -/
def readSprite (m : Memory) : Word → Nat → Except Word (List Byte)
  | _, 0 => .ok []
  | a, n + 1 =>
    match memRead m a with
    | none => .error a
    | some b =>
      match readSprite m (a + 1) n with
      | .error bad => .error bad
      | .ok bs => .ok (b :: bs)

end Sys2Proof.Machine
end

