-- ==== Sys2Proof/Machine/Alu.lean ====
section
/-! DEFINITION. The arithmetic/logic family (spec 40_alu.md). Register arithmetic is on 8-bit vectors, so it wraps modulo
256 (R99). PC already holds the instruction's address + 2 and no instruction here changes it. -/

namespace Sys2Proof.Machine

/-- 6XNN: V[X] ← NN (R100). -/
def execLdImm (x : Reg) (nn : Byte) (s : State) : Host.Outcome State Fault Refusal :=
  .next (s.setReg x nn)

/-- 7XNN: V[X] ← (V[X] + NN) mod 256; VF is not written as a flag (R101). -/
def execAddImm (x : Reg) (nn : Byte) (s : State) : Host.Outcome State Fault Refusal :=
  .next (s.setReg x (s.reg x + nn))

/-- 8XY0: V[X] ← V[Y] (R103). -/
def execLdReg (x y : Reg) (s : State) : Host.Outcome State Fault Refusal :=
  .next (s.setReg x (s.reg y))

/-- 8XY1: V[X] ← V[X] | V[Y]; VF is not reset (R104, R107). -/
def execOrReg (x y : Reg) (s : State) : Host.Outcome State Fault Refusal :=
  .next (s.setReg x (s.reg x ||| s.reg y))

/-- 8XY2: V[X] ← V[X] & V[Y]; VF is not reset (R105, R107). -/
def execAndReg (x y : Reg) (s : State) : Host.Outcome State Fault Refusal :=
  .next (s.setReg x (s.reg x &&& s.reg y))

/-- 8XY3: V[X] ← V[X] ^ V[Y]; VF is not reset (R106, R107). -/
def execXorReg (x y : Reg) (s : State) : Host.Outcome State Fault Refusal :=
  .next (s.setReg x (s.reg x ^^^ s.reg y))

/-- 8XY4: V[X] ← (V[X] + V[Y]) mod 256, then VF ← carry of the unwrapped sum (R108, R109). -/
def execAddReg (x y : Reg) (s : State) : Host.Outcome State Fault Refusal :=
  .next (s.setRegFlag x (s.reg x + s.reg y) (carryFlag (s.reg x) (s.reg y)))

/-- 8XY5: V[X] ← (V[X] − V[Y]) mod 256, then VF ← not borrow (R110). -/
def execSubReg (x y : Reg) (s : State) : Host.Outcome State Fault Refusal :=
  .next (s.setRegFlag x (s.reg x - s.reg y) (notBorrowFlag (s.reg x) (s.reg y)))

/-- 8XY6 under a given QUIRK_VARIANT (R112). -/
def shrUnder (q : QuirkVariant) (x y : Reg) (s : State) : State :=
  s.setRegFlag x (shiftSource q x y s >>> 1) (shiftRightFlag (shiftSource q x y s))

/-- 8XY6: V[X] ← V[X] >> 1, then VF ← old bit 0; Y is ignored (R112). -/
def execShrReg (x y : Reg) (s : State) : Host.Outcome State Fault Refusal :=
  .next (shrUnder Config.quirkVariant x y s)

/-- 8XY7: V[X] ← (V[Y] − V[X]) mod 256, then VF ← not borrow (R111). -/
def execSubnReg (x y : Reg) (s : State) : Host.Outcome State Fault Refusal :=
  .next (s.setRegFlag x (s.reg y - s.reg x) (notBorrowFlag (s.reg y) (s.reg x)))

/-- 8XYE under a given QUIRK_VARIANT (R113). -/
def shlUnder (q : QuirkVariant) (x y : Reg) (s : State) : State :=
  s.setRegFlag x (shiftSource q x y s <<< 1) (shiftLeftFlag (shiftSource q x y s))

/-- 8XYE: V[X] ← (V[X] << 1) mod 256, then VF ← old bit 7; Y is ignored (R113). -/
def execShlReg (x y : Reg) (s : State) : Host.Outcome State Fault Refusal :=
  .next (shlUnder Config.quirkVariant x y s)

/-- ANNN: I ← zext_16(NNN); I is not checked against the memory's size (R120). -/
def execLdI (nnn : BitVec 12) (s : State) : Host.Outcome State Fault Refusal :=
  .next (s.setI (addrOperand nnn))

/-- CXNN for a draw r: V[X] ← r & NN (R130). -/
def rndWith (r : Byte) (x : Reg) (nn : Byte) (s : State) : State := s.countDraw.setReg x (r &&& nn)

/-- CXNN: one fresh draw, a free value (R130, R131; notes/assumptions/3.md). -/
def execRnd (x : Reg) (nn : Byte) (s : State) : Host.Outcome State Fault Refusal :=
  .next (rndWith (s.nextDraw Config.rand) x nn s)

end Sys2Proof.Machine
end

