-- ==== Sys2Proof/Machine/ControlFlow.lean ====
section
/-! DEFINITION. The control-flow family (spec 41_control_flow.md). PC already holds the instruction's address + 2. -/

namespace Sys2Proof.Machine

/-- 00EE under a given EMPTY_RET_POLICY (R141, R142). -/
def retUnder (p : EmptyRetPolicy) (s : State) : State :=
  if 0 < s.sp then s.popPc
  else match p with
    | .fallbackZero => s.setPc 0
    | .fault => raise (.stackUnderflow s.instrAddr (encode .ret)) s

/-- 00EE: PC ← Pop(), or PC ← 0 on an empty stack (R141). -/
def execRet (s : State) : Host.Outcome State Fault Refusal :=
  .next (retUnder Config.emptyRetPolicy s)

/-- 1NNN: PC ← zext_16(NNN) (R144). -/
def execJp (nnn : BitVec 12) (s : State) : Host.Outcome State Fault Refusal :=
  .next (s.setPc (addrOperand nnn))

/-- 2NNN: StackOverflow when the stack holds 16 entries, before anything is stored; else Push(PC) and PC ← zext_16(NNN)
(R143; notes/assumptions/16.md, notes/assumptions/19.md). -/
def execCall (nnn : BitVec 12) (s : State) : Host.Outcome State Fault Refusal :=
  if 16 ≤ s.sp then .next (raise (.stackOverflow s.instrAddr (encode (.call nnn))) s)
  else .next ((s.push s.pc).setPc (addrOperand nnn))

/-- 3XNN: skip if V[X] = NN (R145). -/
def execSeImm (x : Reg) (nn : Byte) (s : State) : Host.Outcome State Fault Refusal :=
  .next (s.skipIf (s.reg x == nn))

/-- 4XNN: skip if V[X] ≠ NN (R146). -/
def execSneImm (x : Reg) (nn : Byte) (s : State) : Host.Outcome State Fault Refusal :=
  .next (s.skipIf (s.reg x != nn))

/-- 5XY0: skip if V[X] = V[Y] (R147). -/
def execSeReg (x y : Reg) (s : State) : Host.Outcome State Fault Refusal :=
  .next (s.skipIf (s.reg x == s.reg y))

/-- 9XY0: skip if V[X] ≠ V[Y] (R148). -/
def execSneReg (x y : Reg) (s : State) : Host.Outcome State Fault Refusal :=
  .next (s.skipIf (s.reg x != s.reg y))

/-- BNNN under a given QUIRK_VARIANT (R150). -/
def jpV0Under (q : QuirkVariant) (nnn : BitVec 12) (s : State) : State :=
  s.setPc (addrOperand nnn + jumpOffset q nnn s)

/-- BNNN: PC ← (zext_16(NNN) + zext_16(V0)) mod 2^16, not reduced modulo 4096 (R150). -/
def execJpV0 (nnn : BitVec 12) (s : State) : Host.Outcome State Fault Refusal :=
  .next (jpV0Under Config.quirkVariant nnn s)

/-- EX9E: skip if V[X] is a valid key index and that key is pressed (R151, R152). -/
def execSkp (x : Reg) (s : State) : Host.Outcome State Fault Refusal :=
  .next (s.skipIf (keyFlag s (s.reg x) == some true))

/-- EXA1: skip if V[X] is a valid key index and that key is not pressed (R151, R153). -/
def execSknp (x : Reg) (s : State) : Host.Outcome State Fault Refusal :=
  .next (s.skipIf (keyFlag s (s.reg x) == some false))

end Sys2Proof.Machine
end

