-- ==== Sys2Proof/Machine/Display.lean ====
section
/-! DEFINITION. The display family and its collision detector (spec 42_display.md). -/

namespace Sys2Proof.Machine

/-- Pixel (x, y) of a screen, off outside the 64×32 grid (10_state.md R31). -/
def pixel (fb : Screen) (x y : Nat) : Bool :=
  if h : x < 64 ∧ y < 32 then (fb[y]'h.2)[x]'h.1 else false

/-- FB[p], pixel (p mod 64, p div 64): element x + 64·y (10_state.md R31, R177). -/
def fbBit (fb : Screen) (p : Nat) : Bool := pixel fb (p % 64) (p / 64)

/-- All 2048 pixels off (R170). -/
def blankScreen : Screen := Vector.replicate 32 (Vector.replicate 64 false)

/-- A draw in progress: the screen and whether a lit pixel was turned off so far (R175). -/
structure Canvas where
  fb : Screen
  collide : Bool
  deriving DecidableEq, Repr

/-- A 1-bit of a sprite at column x of row y: outside the grid it is not drawn (R174); inside, the pixel is XORed, and a
pixel that was on raises the collision (R175). -/
def plot (c : Canvas) (x y : Nat) : Canvas :=
  if h : x < 64 ∧ y < 32 then
    { fb := c.fb.set y ((c.fb[y]'h.2).set x (!(c.fb[y]'h.2)[x]'h.1) h.1) h.2
      collide := c.collide || (c.fb[y]'h.2)[x]'h.1 }
  else c

/-- One sprite row at (x0, y), most significant bit leftmost and first (R171, R175). -/
def drawRow (c : Canvas) (x0 y : Nat) (row : Byte) : Canvas :=
  (List.range 8).foldl (fun c b => if row.getLsbD (7 - b) then plot c (x0 + b) y else c) c

/-- Sprite rows from row y downwards (R171). -/
def drawRows (c : Canvas) (x0 : Nat) : Nat → List Byte → Canvas
  | _, [] => c
  | y, row :: rows => drawRows (drawRow c x0 y row) x0 (y + 1) rows

/-- The whole draw on a screen: rows stop at the bottom edge (R174), the flag starts at 0 (R175). -/
def drawSprite (fb : Screen) (x0 y0 : Nat) (rows : List Byte) : Canvas :=
  drawRows { fb := fb, collide := false } x0 y0 (rows.take (32 - y0))

/-- 00E0: every pixel off; VF is not written (R170). -/
def execCls (s : State) : Host.Outcome State Fault Refusal :=
  .next (s.setFb blankScreen)

/-- The state after a draw: the new screen, and VF ← collision as the last register write (R171, R176). -/
def State.withDrawn (s : State) (c : Canvas) : State :=
  (s.setFb c.fb).setReg vf (collisionFlag c.collide)

/-- DXYN: all N rows are read and checked first, an AddressFault changing neither FB nor VF (R172); the coordinates are
read before VF is written (R176); then the draw. -/
def execDrw (x y : Reg) (n : Nat) (s : State) : Host.Outcome State Fault Refusal :=
  match readSprite s.mem s.i n with
  | .error bad => .next (raise (.drawAddressFault s.instrAddr (encode (.drw x y n)) bad) s)
  | .ok rows => .next (s.withDrawn (drawSprite s.fb (startColumn s x) (startRow s y) rows))

end Sys2Proof.Machine
end

