-- ==== Sys2Proof/Machine/Step.lean ====
section
/-! DEFINITION. One STEP of the engine (spec 30_encoding.md R76, 43_host_interface.md R193). -/

namespace Sys2Proof.Machine

/-- One STEP: the STEP cycle of R76 with `exec` as its execute phase. The status it returns is the FAULT of the state it
leaves (43_host_interface.md R193). -/
def step (s : State) : Host.Outcome State Fault Refusal := stepCycle exec s

/-- The state with a word stored where STEP fetches its next instruction, big-endian at PC (R55, R71), so that the very
next step runs it. The word's bits above `nbits` and above the 16 of an instruction are dropped
(notes/assumptions/15.md, notes/assumptions/20.md). -/
def State.withFetchWord (s : State) (nbits w : Nat) : State :=
  { s.readyToFetch with
    mem := storeWord s.mem s.readyToFetch.pc.toNat (BitVec.ofNat 16 (w % 2 ^ nbits)) }

end Sys2Proof.Machine
end

