-- ==== Sys2Proof/Machine/Parameters.lean ====
section
/-! DEFINITION. The machine for any parameters: exec and STEP with the arguments of spec 00_scope.md R11. The machine of
this hardware, `exec` and `step`, is the one of `Config.params`. -/

namespace Sys2Proof.Machine

/-- The execute phase for given parameters. 00EE takes EMPTY_RET_POLICY, CXNN takes RAND, and the two shifts and BNNN
take QUIRK_VARIANT; no other instruction has a parameter (R11). -/
def execUnder (p : Params) (i : Instr) (s : State) : Host.Outcome State Fault Refusal :=
  match i with
  | .ret => .next (retUnder p.emptyRetPolicy s)
  | .rnd x nn => .next (rndWith (s.nextDraw p.rand) x nn s)
  | .shrReg x y => .next (shrUnder p.quirkVariant x y s)
  | .shlReg x y => .next (shlUnder p.quirkVariant x y s)
  | .jpV0 nnn => .next (jpV0Under p.quirkVariant nnn s)
  | .cls | .jp _ | .call _ | .seImm _ _ | .sneImm _ _ | .seReg _ _ | .sneReg _ _ | .ldImm _ _ | .addImm _ _
  | .ldReg _ _ | .orReg _ _ | .andReg _ _ | .xorReg _ _ | .addReg _ _ | .subReg _ _ | .subnReg _ _ | .ldI _
  | .drw _ _ _ | .skp _ | .sknp _ => exec i s

/-- One STEP for given parameters: the STEP cycle of R76. -/
def stepUnder (p : Params) (s : State) : Host.Outcome State Fault Refusal := stepCycle (execUnder p) s

end Sys2Proof.Machine
end

