-- ==== Sys2Proof/Machine/HostInterface.lean ====
section
/-! DEFINITION. The seven host operations (spec 43_host_interface.md R190) and the timer countdown (60_exceptions.md R226). -/

namespace Sys2Proof.Machine

/-- An operation the host presents (R190). -/
inductive HostOp where
  /-- Construct the Machine (70_reset_and_hazards.md R240). -/
  | reset
  /-- Copy a program image to 0x200 (R191). -/
  | load (image : List Byte)
  /-- Advance one instruction (R193). -/
  | step
  /-- Decrement the selected timers (60_exceptions.md R226). -/
  | timerTick (decDt decSt : Bool)
  /-- Press or release key k (R195). -/
  | key (k : Nat) (pressed : Bool)
  /-- Read the framebuffer (R196). -/
  | fbRead
  /-- Read FAULT (R197). -/
  | status
  deriving DecidableEq, Repr

/-- What an operation returns to the host (the result column of R190). -/
inductive HostResult where
  /-- No result. -/
  | none
  /-- A status: 0 or the FAULT code. -/
  | status (code : BitVec 3)
  /-- The 2048 pixels in row-major order. -/
  | pixels (bits : List Bool)
  deriving DecidableEq, Repr

/-- The program load base, 0x200 (00_scope.md R10). -/
def loadBase : Nat := 0x200

/-- The longest image, 4096 − 512 bytes (00_scope.md R10). -/
def maxImage : Nat := 3584

/-- LOAD of an accepted image: an over-long one writes no byte and raises LoadingError (R191, 90_conflicts.md C3). -/
def loadImage (image : List Byte) (s : State) : State :=
  if maxImage < image.length then raise (.loadingError image.length) s.closeLoad
  else { s.closeLoad with mem := Memory.writeBytes s.mem loadBase image }

/-- LOAD: refused while LOADABLE = 0 (R192) and while an error is latched (60_exceptions.md R216); notes/assumptions/10.md. -/
def hostLoad (image : List Byte) (s : State) : Host.Outcome State Fault Refusal :=
  if s.loadable = true ∧ s.fault = 0 then .next (loadImage image s) else .refused .loadNotAccepted

/-- The countdown of one timer under a given TIMER_UNDERFLOW (60_exceptions.md R226). -/
def countdown (u : TimerUnderflow) (t : Byte) : Byte :=
  if 0 < t.toNat then t - 1
  else match u with
    | .wrap => 0xFF
    | .saturate => 0

/-- TIMER_TICK under a given TIMER_UNDERFLOW, accepted in every state (60_exceptions.md R226). -/
def tickUnder (u : TimerUnderflow) (decDt decSt : Bool) (s : State) : State :=
  { s with
    dt := if decDt then countdown u s.dt else s.dt
    st := if decSt then countdown u s.st else s.st }

/-- KEY: KEY[k] ← pressed, refused for k ≥ 16 with no state change (R195). -/
def hostKey (k : Nat) (pressed : Bool) (s : State) : Host.Outcome State Fault Refusal :=
  if h : k < 16 then .next { s with key := s.key.set k pressed h } else .refused (.keyIndexOutOfRange k)

/-- FB_READ: FB[0..2047], element x + 64·y (R196). -/
def fbRead (s : State) : List Bool := (List.range 2048).map (fbBit s.fb)

/-- The state of an outcome paired with the result read from it. -/
def withResult (f : State → HostResult) :
    Host.Outcome State Fault Refusal → Host.Outcome (State × HostResult) Fault Refusal
  | .next s => .next (s, f s)
  | .fault r => .fault r
  | .refused r => .refused r

/-- One host operation for given parameters: the next state with its result, or a refusal (R190). STEP and LOAD return
the FAULT code of the state they leave, 0 on success (R191, R193; 60_exceptions.md R215, R216). -/
def performUnder (p : Params) (o : HostOp) (s : State) : Host.Outcome (State × HostResult) Fault Refusal :=
  match o with
  | .reset => .next (hostResetUnder p s, .none)
  | .load image => withResult (fun t => .status t.fault) (hostLoad image s)
  | .step => withResult (fun t => .status t.fault) (stepUnder p s)
  | .timerTick d e => .next (tickUnder p.timerUnderflow d e s, .none)
  | .key k pressed => withResult (fun _ => .none) (hostKey k pressed s)
  | .fbRead => .next (s, .pixels (fbRead s))
  | .status => .next (s, .status s.fault)

/-- A session's operations one after another, stopping at the first refusal: H-1 and H-4 of R200, R199 (3). -/
def performAllUnder (p : Params) : List HostOp → State → Host.Outcome State Fault Refusal
  | [], s => .next s
  | o :: os, s =>
    match performUnder p o s with
    | .next (t, _) => performAllUnder p os t
    | .fault r => .fault r
    | .refused r => .refused r

/-- One host operation on this hardware (R11, R190). -/
def perform (o : HostOp) (s : State) : Host.Outcome (State × HostResult) Fault Refusal :=
  performUnder Config.params o s

/-- A session on this hardware. -/
def performAll (os : List HostOp) (s : State) : Host.Outcome State Fault Refusal :=
  performAllUnder Config.params os s

end Sys2Proof.Machine
end

