-- ==== Sys2Proof/Safety.lean ====
section
/-! DEFINITION. The terms claims are stated in: what an operation keeps, the invariants, halting, and runs. -/

namespace Sys2Proof.Machine

/-! ### What an operation keeps -/

/-- Every general register is unchanged. -/
def RegsKept (s t : State) : Prop := ∀ y : Reg, t.reg y = s.reg y

/-- Every general register but x is unchanged. -/
def RegsKeptBut (x : Reg) (s t : State) : Prop := ∀ y : Reg, y ≠ x → t.reg y = s.reg y

/-- Every general register but x and VF is unchanged. -/
def RegsKeptButFlagAnd (x : Reg) (s t : State) : Prop := ∀ y : Reg, y ≠ x → y ≠ vf → t.reg y = s.reg y

/-- Every byte of memory reads as before. -/
def MemoryKept (s t : State) : Prop := ∀ a : Nat, Memory.read t.mem a = Memory.read s.mem a

/-- The call stack is unchanged, dead entries included (notes/assumptions/16.md). -/
def StackKept (s t : State) : Prop := t.sp = s.sp ∧ ∀ k : Fin 16, t.stack[k] = s.stack[k]

/-- Every pixel is unchanged. -/
def ScreenKept (s t : State) : Prop := ∀ x y : Nat, pixel t.fb x y = pixel s.fb x y

/-- The timers and the key state, which only the host writes, are unchanged. -/
def HostSideKept (s t : State) : Prop := t.dt = s.dt ∧ t.st = s.st ∧ ∀ k : Fin 16, t.key[k] = s.key[k]

/-- FAULT and LOADABLE are unchanged, and so is the model's record of the error. -/
def StatusKept (s t : State) : Prop :=
  t.fault = s.fault ∧ t.loadable = s.loadable ∧ t.errorInfo = s.errorInfo

/-- What no completed instruction changes: memory, timers, keys, FAULT and LOADABLE. -/
def SystemKept (s t : State) : Prop := MemoryKept s t ∧ HostSideKept s t ∧ StatusKept s t

/-- Nothing but general registers (and the model's count of draws) may differ. -/
def OnlyRegsDiffer (s t : State) : Prop :=
  t.pc = s.pc ∧ t.i = s.i ∧ StackKept s t ∧ ScreenKept s t ∧ SystemKept s t

/-- Nothing but PC may differ. -/
def OnlyPcDiffers (s t : State) : Prop :=
  RegsKept s t ∧ t.i = s.i ∧ t.draws = s.draws ∧ StackKept s t ∧ ScreenKept s t ∧ SystemKept s t

/-- An error entry changes nothing but PC, FAULT, LOADABLE and the model's record of the error
(60_exceptions.md R214). -/
def ErrorKept (s t : State) : Prop :=
  RegsKept s t ∧ t.i = s.i ∧ t.draws = s.draws ∧ StackKept s t ∧ ScreenKept s t ∧ MemoryKept s t ∧ HostSideKept s t

/-! ### Errors -/

/-- The FAULT a STEP leaves when none is latched: the code of the first error of 60_exceptions.md R213 that applies, or 0.
That every one of a draw's N rows counts is 92 D16 (notes/assumptions/12.md). -/
def firstError (policy : EmptyRetPolicy) (s : State) : BitVec 3 :=
  if 0xFFF < s.pc.toNat then 5
  else if 0xFFF < s.pc.toNat + 1 then 5
  else match decode (wordOfBytes (Memory.read s.mem s.pc.toNat) (Memory.read s.mem (s.pc.toNat + 1))) with
    | .vacantMemory => 3
    | .unknownInstruction => 4
    | .instr (.call _) => if s.sp = 16 then 1 else 0
    | .instr .ret => if s.sp = 0 ∧ policy = .fault then 6 else 0
    | .instr (.drw _ _ n) => if 0 < n ∧ 0xFFF < s.i.toNat + (n - 1) then 5 else 0
    | .instr _ => 0

/-! ### Encodings -/

/-- A word is the instruction `f word` exactly when it has the pattern under the mask (30_encoding.md R80). -/
def EncodedAs (pattern mask : Word) (f : Word → Instr) : Prop :=
  ∀ op : Word, decode op = .instr (f op) ↔ op &&& mask = pattern

/-! ### Sprites -/

/-- The N sprite bytes MEM[I], …, MEM[I + N − 1] (42_display.md R172). -/
def spriteRows (s : State) (n : Nat) : List Byte := (List.range n).map fun r => Memory.read s.mem (s.i.toNat + r)

/-- The bit a sprite at (x0, y0) has at column x of row y: bit 7 − (x − x0) of row byte y − y0, most significant bit
leftmost, and off outside the sprite (42_display.md R171, R175). -/
def spriteBit (rows : List Byte) (x0 y0 x y : Nat) : Bool :=
  decide (x0 ≤ x ∧ x < x0 + 8 ∧ y0 ≤ y) && (rows.getD (y - y0) 0).getLsbD (7 - (x - x0))

/-! ### Invariants -/

/-- The invariant of the machine of given parameters. -/
structure State.InvUnder (p : Params) (s : State) : Prop where
  /-- PC is at most 0x10FE, the largest BNNN target (10_state.md R26). -/
  pc_le : s.pc.toNat ≤ 0x10FE
  /-- I is at most 0xFFF (10_state.md R27). -/
  i_le : s.i.toNat ≤ 0xFFF
  /-- The stack's size never exceeds 16 (10_state.md R28). -/
  sp_le : s.sp ≤ 16
  /-- Every live return address lies at most two bytes above the last fetchable address. -/
  live_le : ∀ k : Fin 16, k.val < s.sp → (s.stack[k]).toNat ≤ 0x1000
  /-- Memory is in its canonical form. -/
  mem_wf : Memory.wf s.mem
  /-- The reserved range, the font among it, holds what RESET put there (20_memory.md R50, R58). -/
  low_kept : ∀ a : Nat, a < 0x200 → Memory.read s.mem a = fontAt p.font.toList a
  /-- FAULT is 0 when no error is recorded and else the code of the recorded one, so it is never 7 (10_state.md R35). -/
  fault_eq : s.fault = s.errorInfo.elim 0 ErrorInfo.code
  /-- A latched error leaves LOADABLE at 0 (10_state.md R36). -/
  fault_closed : s.fault ≠ 0 → s.loadable = false

/-- The invariant of this hardware. -/
abbrev State.Inv (s : State) : Prop := s.InvUnder Config.params

/-- DT = ST = 0, which TIMER_UNDERFLOW = SATURATE keeps (60_exceptions.md R227). -/
def TimersZero (s : State) : Prop := s.dt = 0 ∧ s.st = 0

/-! ### Ends of a run and runs -/

/-- The halt loop of 43_host_interface.md R199: no error is latched and the word at PC = A is 1NNN with NNN = A. -/
abbrev Halted (s : State) : Prop :=
  s.fault = 0 ∧ s.pc.toNat ≤ 0xFFE ∧
    Memory.read s.mem s.pc.toNat = 0x10#8 ||| (s.pc.extractLsb' 8 4).zeroExtend 8 ∧
    Memory.read s.mem (s.pc.toNat + 1) = s.pc.extractLsb' 0 8

/-- A state in which an error is latched (43_host_interface.md R199). -/
abbrev Faulted (s : State) : Prop := s.fault ≠ 0

/-- A state that some sequence of host operations reaches from RESET (43_host_interface.md R200). -/
def ReachableUnder (p : Params) (s : State) : Prop :=
  ∃ ops : List HostOp, performAllUnder p ops (State.resetUnder p) = .next s

/-- A state that some sequence of host operations reaches from RESET on this hardware. -/
def Reachable (s : State) : Prop := ∃ ops : List HostOp, performAll ops State.reset = .next s

/-- Host operations other than RESET from one state to another, in any interleaving (43_host_interface.md R200 H-4), in
which the stack never holds fewer than `n` entries: no unbalanced return. -/
inductive OpsAbove (p : Params) (n : Nat) : State → State → Prop where
  /-- No operation. -/
  | refl (s : State) : OpsAbove p n s s
  /-- One more operation. -/
  | tail {s t u : State} {o : HostOp} {r : HostResult} : OpsAbove p n s t → o ≠ .reset →
      performUnder p o t = .next (u, r) → n ≤ u.sp → OpsAbove p n s u

/-- Two states that agree in all but dead stack entries, STACK[k] with k ≥ SP (10_state.md R28). -/
def SameButDeadStack (s t : State) : Prop :=
  t = { s with stack := t.stack } ∧ ∀ k : Fin 16, k.val < s.sp → t.stack[k] = s.stack[k]

end Sys2Proof.Machine
end

