-- ==== Sys2Proof/Certificates/Slice0/Obligations.lean ====
section
/-! DEFINITION. The statements for the provers, in the terms of Sys2Proof/Safety.lean. "log n" is notes/assumptions/n.md. -/

open Sys2Proof Sys2Proof.Machine

/-! ### Encoding -/

/-- Decode after encode is the identity on every well-formed instruction, with every operand value (R70, R80). -/
def Obligations.DecodeOfEncodeGivesInstructionBack : Prop :=
  ∀ i : Instr, i.wellFormed = true → decode (encode i) = .instr i

/-- Encode after decode is the identity: no bit of an instruction's word is dropped, and what the decoder gives is
well-formed (R70, R80, R81). -/
def Obligations.EncodeOfDecodeGivesWordBack : Prop :=
  ∀ (op : Word) (i : Instr), decode op = .instr i → encode i = op ∧ i.wellFormed = true

/-- R80: the opcode map has 25 rows, and a word is a row's instruction exactly when it has the row's pattern under the
row's mask. -/
def Obligations.OpcodeMapDecidesEveryInstruction : Prop :=
  opcodeTable.length = 25 ∧
  (∀ r ∈ opcodeTable, ∀ op : Word,
    op &&& r.mask = r.pattern ↔ ∃ i, decode op = .instr i ∧ i.mnemonic = r.mnemonic) ∧
  ∀ (op : Word) (i : Instr), decode op = .instr i → ∃ r ∈ opcodeTable, r.mnemonic = i.mnemonic

/-- R84, R85, R87: the null word alone is VacantMemory, and a word is unknown exactly when it is not null and matches no
row of the opcode map; family 0xF is unknown throughout (R86). -/
def Obligations.NullAndUnknownWords : Prop :=
  (∀ op : Word, decode op = .vacantMemory ↔ op = 0) ∧
  (∀ op : Word, decode op = .unknownInstruction ↔ op ≠ 0 ∧ ∀ r ∈ opcodeTable, op &&& r.mask ≠ r.pattern) ∧
  ∀ op : Word, 0xF000 ≤ op.toNat → decode op = .unknownInstruction

/-- R82, which the spec marks as derived: how many words of each family are unknown; with the null word of family 0x0
that leaves 43810 instructions of 65536 words. -/
def Obligations.UnknownWordsPerFamily : Prop :=
  ∀ f : Fin 16,
    (List.range 4096).countP (fun k => decide (decode (BitVec.ofNat 16 (4096 * f.val + k)) = .unknownInstruction)) =
      [4093, 0, 0, 0, 0, 3840, 0, 0, 1792, 3840, 0, 0, 0, 0, 4064, 4096].getD f.val 0

/-- R73: the six fields, as numbers cut out of the opcode. -/
def Obligations.FieldsAreTheOpcodeBits : Prop :=
  ∀ op : Word,
    (fieldF op).toNat = op.toNat / 4096 ∧ (fieldX op).val = op.toNat / 256 % 16 ∧
    (fieldY op).val = op.toNat / 16 % 16 ∧ (fieldN op).toNat = op.toNat % 16 ∧
    (fieldNN op).toNat = op.toNat % 256 ∧ (fieldNNN op).toNat = op.toNat % 4096

/-- One word of each of the 16 families, written out from R80, decodes to its instruction, or to UnknownInstruction in
family 0xF, which has none (92 D11, log 18); so do a second word of families 0x0 and 0xE. A nonzero N in family 0x5 is
unknown (92 D10, log 18), and the null word is VacantMemory. -/
def Obligations.SampleWordsDecode : Prop :=
  decode 0x00EE = .instr .ret ∧ decode 0x00E0 = .instr .cls ∧ decode 0x0000 = .vacantMemory ∧
  decode 0x1234 = .instr (.jp 0x234) ∧ decode 0x2400 = .instr (.call 0x400) ∧
  decode 0x3105 = .instr (.seImm 1 0x05) ∧ decode 0x4106 = .instr (.sneImm 1 0x06) ∧
  decode 0x5120 = .instr (.seReg 1 2) ∧ decode 0x5121 = .unknownInstruction ∧
  decode 0x6A42 = .instr (.ldImm 0xA 0x42) ∧ decode 0x7005 = .instr (.addImm 0 0x05) ∧
  decode 0x8256 = .instr (.shrReg 2 5) ∧ decode 0x9120 = .instr (.sneReg 1 2) ∧
  decode 0xA050 = .instr (.ldI 0x050) ∧ decode 0xB302 = .instr (.jpV0 0x302) ∧
  decode 0xC30F = .instr (.rnd 3 0x0F) ∧ decode 0xD015 = .instr (.drw 0 1 5) ∧
  decode 0xE49E = .instr (.skp 4) ∧ decode 0xE4A1 = .instr (.sknp 4) ∧ decode 0xF00A = .unknownInstruction

/-! ### Fetch and the STEP cycle -/

/-- R55: a fetch combines two consecutive bytes big-endian. -/
def Obligations.FetchIsBigEndian : Prop :=
  ∀ s : State, s.pc.toNat ≤ 0xFFE → ∃ op, fetch s = .ok op ∧
    op.toNat = 256 * (Memory.read s.mem s.pc.toNat).toNat + (Memory.read s.mem (s.pc.toNat + 1)).toNat

/-- A STEP runs the decoded instruction (R76): with no error latched and a fetchable PC, it is exec of that instruction
in the state with LOADABLE = 0 and PC advanced by 2; so it is for any parameters of R11. LOADABLE is the spec's own
element (92 D14, log 10). -/
def Obligations.StepRunsDecodedInstruction : Prop :=
  ∀ (s : State) (i : Instr), s.fault = 0 → s.pc.toNat ≤ 0xFFE →
    decode (wordOfBytes (Memory.read s.mem s.pc.toNat) (Memory.read s.mem (s.pc.toNat + 1))) = .instr i →
    step s = exec i { s with loadable := false, pc := s.pc + 2 } ∧
    ∀ p : Params, stepUnder p s = execUnder p i { s with loadable := false, pc := s.pc + 2 }

/-- The errors before execution (R71, R84, R85, R214; the codes and the kept PC are the spec's choices 92 D3, D4, D6,
logs 9, 11, 19): a fetch error leaves PC, a decode error leaves PC advanced, and nothing else but FAULT, LOADABLE and
the model's record (log 2) changes. -/
def Obligations.ErrorsBeforeExecution : Prop :=
  ∀ s : State, s.fault = 0 →
    (0xFFF < s.pc.toNat → ∃ t, step s = .next t ∧ ErrorKept s t ∧ t.pc = s.pc ∧ t.fault = 5 ∧ t.loadable = false ∧
      t.errorInfo = some (.fetchAddressFault s.pc s.pc)) ∧
    (s.pc.toNat = 0xFFF → ∃ t, step s = .next t ∧ ErrorKept s t ∧ t.pc = s.pc ∧ t.fault = 5 ∧ t.loadable = false ∧
      t.errorInfo = some (.fetchAddressFault s.pc 0x1000)) ∧
    (∀ op, fetch s = .ok op → decode op = .vacantMemory → ∃ t, step s = .next t ∧ ErrorKept s t ∧ t.pc = s.pc + 2 ∧
      t.fault = 3 ∧ t.loadable = false ∧ t.errorInfo = some (.vacantMemory s.pc op)) ∧
    (∀ op, fetch s = .ok op → decode op = .unknownInstruction → ∃ t, step s = .next t ∧ ErrorKept s t ∧
      t.pc = s.pc + 2 ∧ t.fault = 4 ∧ t.loadable = false ∧ t.errorInfo = some (.unknownInstruction s.pc op))

/-- R216 (the spec's choice 92 D5, log 9): while an error is latched a STEP changes nothing and returns it, a LOAD is
refused, the other operations keep working and keep it, and only RESET clears it. -/
def Obligations.LatchedErrorMakesStepInert : Prop :=
  ∀ s : State, s.fault ≠ 0 →
    perform .step s = .next (s, .status s.fault) ∧
    (∀ image, perform (.load image) s = .refused .loadNotAccepted) ∧
    (∀ d e, ∃ t, perform (.timerTick d e) s = .next (t, .none)) ∧
    (∀ k p, k < 16 → ∃ t, perform (.key k p) s = .next (t, .none)) ∧
    perform .fbRead s = .next (s, .pixels (fbRead s)) ∧
    perform .status s = .next (s, .status s.fault) ∧
    (∀ o t r, o ≠ .reset → perform o s = .next (t, r) → t.fault = s.fault) ∧
    ∃ t, perform .reset s = .next (t, .none) ∧ t.fault = 0

/-- R212, R214 (92 D6, log 19): an error is precise. A STEP that latches one changes nothing but FAULT, LOADABLE, PC and
the model's record (log 2); PC is A for a fetch error and A + 2 after a successful fetch. -/
def Obligations.ErrorsLeaveNoPartialEffect : Prop :=
  ∀ s t : State, s.fault = 0 → step s = .next t → t.fault ≠ 0 →
    ErrorKept s t ∧ t.loadable = false ∧ t.pc = if s.pc.toNat ≤ 0xFFE then s.pc + 2 else s.pc

/-- R213 (92 D33, log 23): which error a STEP latches, the first that applies in the order fetch, decode, execute, spelled
out in `firstError`; on this hardware and for any parameters. That every one of a draw's N rows counts, drawn or not, is
the spec's choice 92 D16 (log 12); that 00EE on an empty stack raises nothing on this hardware is 92 D8 (log 6). -/
def Obligations.ErrorPriority : Prop :=
  ∀ s t : State, s.fault = 0 → s.sp ≤ 16 →
    (step s = .next t → t.fault = firstError .fallbackZero s) ∧
    ∀ p : Params, stepUnder p s = .next t → t.fault = firstError p.emptyRetPolicy s

/-- Nothing stops the machine: every STEP has a next state, and the host operations that have none are a LOAD and a KEY
that the spec refuses (R192, R195, R216, R231). -/
def Obligations.OnlyLoadAndKeyAreRefused : Prop :=
  (∀ s : State, ∃ t, step s = .next t) ∧
  ∀ (o : HostOp) (s : State),
    (∃ t r, perform o s = .next (t, r)) ∨
    (∃ image, o = .load image ∧ (s.loadable = false ∨ s.fault ≠ 0) ∧ perform o s = .refused .loadNotAccepted) ∨
    ∃ k p, o = .key k p ∧ 16 ≤ k ∧ perform o s = .refused (.keyIndexOutOfRange k)

/-! ### The arithmetic/logic family -/

/-- R100. -/
def Obligations.LdImmSetsRegister : Prop :=
  EncodedAs 0x6000 0xF000 (fun op => .ldImm (fieldX op) (fieldNN op)) ∧
  ∀ (x : Reg) (nn : Byte) (s : State), ∃ t, exec (.ldImm x nn) s = .next t ∧
    t.reg x = nn ∧ RegsKeptBut x s t ∧ OnlyRegsDiffer s t ∧ t.draws = s.draws

/-- R101: no flag is written, so VF is kept unless it is X. -/
def Obligations.AddImmWrapsWithoutFlag : Prop :=
  EncodedAs 0x7000 0xF000 (fun op => .addImm (fieldX op) (fieldNN op)) ∧
  ∀ (x : Reg) (nn : Byte) (s : State), ∃ t, exec (.addImm x nn) s = .next t ∧
    (t.reg x).toNat = ((s.reg x).toNat + nn.toNat) % 256 ∧
    RegsKeptBut x s t ∧ OnlyRegsDiffer s t ∧ t.draws = s.draws

/-- The round-trip law of R101, which the spec marks as derived: 7XNN then 7XMM with MM = (256 − NN) mod 256. -/
def Obligations.AddImmRoundTrip : Prop :=
  ∀ (x : Reg) (nn mm : Byte) (s : State), mm.toNat = (256 - nn.toNat) % 256 →
    ∃ t u, exec (.addImm x nn) s = .next t ∧ exec (.addImm x mm) t = .next u ∧ RegsKept s u ∧ OnlyRegsDiffer s u

/-- R103. -/
def Obligations.LdRegCopiesRegister : Prop :=
  EncodedAs 0x8000 0xF00F (fun op => .ldReg (fieldX op) (fieldY op)) ∧
  ∀ (x y : Reg) (s : State), ∃ t, exec (.ldReg x y) s = .next t ∧
    t.reg x = s.reg y ∧ RegsKeptBut x s t ∧ OnlyRegsDiffer s t ∧ t.draws = s.draws

/-- R104, R105, R106 and R107: the three logic instructions, bit by bit; VF is not written unless it is X. -/
def Obligations.LogicInstructionsAreBitwise : Prop :=
  EncodedAs 0x8001 0xF00F (fun op => .orReg (fieldX op) (fieldY op)) ∧
  EncodedAs 0x8002 0xF00F (fun op => .andReg (fieldX op) (fieldY op)) ∧
  EncodedAs 0x8003 0xF00F (fun op => .xorReg (fieldX op) (fieldY op)) ∧
  ∀ (x y : Reg) (s : State),
    (∃ t, exec (.orReg x y) s = .next t ∧
      (∀ b, (t.reg x).getLsbD b = ((s.reg x).getLsbD b || (s.reg y).getLsbD b)) ∧
      RegsKeptBut x s t ∧ OnlyRegsDiffer s t ∧ t.draws = s.draws) ∧
    (∃ t, exec (.andReg x y) s = .next t ∧
      (∀ b, (t.reg x).getLsbD b = ((s.reg x).getLsbD b && (s.reg y).getLsbD b)) ∧
      RegsKeptBut x s t ∧ OnlyRegsDiffer s t ∧ t.draws = s.draws) ∧
    (∃ t, exec (.xorReg x y) s = .next t ∧
      (∀ b, (t.reg x).getLsbD b = ((s.reg x).getLsbD b ^^ (s.reg y).getLsbD b)) ∧
      RegsKeptBut x s t ∧ OnlyRegsDiffer s t ∧ t.draws = s.draws)

/-- R108 and R109: the sum modulo 256, VF written last with the carry of the unwrapped sum, whatever X and Y are. -/
def Obligations.AddRegSetsCarry : Prop :=
  EncodedAs 0x8004 0xF00F (fun op => .addReg (fieldX op) (fieldY op)) ∧
  ∀ (x y : Reg) (s : State), ∃ t, exec (.addReg x y) s = .next t ∧
    t.reg vf = (if 255 < (s.reg x).toNat + (s.reg y).toNat then 1 else 0) ∧
    (x ≠ vf → (t.reg x).toNat = ((s.reg x).toNat + (s.reg y).toNat) % 256) ∧
    RegsKeptButFlagAnd x s t ∧ OnlyRegsDiffer s t ∧ t.draws = s.draws

/-- R110: V[X] − V[Y] modulo 256, VF written last: 0 if the subtraction underflows, else 1. -/
def Obligations.SubRegSetsNotBorrow : Prop :=
  EncodedAs 0x8005 0xF00F (fun op => .subReg (fieldX op) (fieldY op)) ∧
  ∀ (x y : Reg) (s : State), ∃ t, exec (.subReg x y) s = .next t ∧
    t.reg vf = (if (s.reg x).toNat < (s.reg y).toNat then 0 else 1) ∧
    (x ≠ vf → ((t.reg x).toNat : Int) = ((s.reg x).toNat - (s.reg y).toNat : Int) % 256) ∧
    RegsKeptButFlagAnd x s t ∧ OnlyRegsDiffer s t ∧ t.draws = s.draws

/-- R111: V[Y] − V[X] modulo 256, VF written last: 0 if the subtraction underflows, else 1. -/
def Obligations.SubnRegSetsNotBorrow : Prop :=
  EncodedAs 0x8007 0xF00F (fun op => .subnReg (fieldX op) (fieldY op)) ∧
  ∀ (x y : Reg) (s : State), ∃ t, exec (.subnReg x y) s = .next t ∧
    t.reg vf = (if (s.reg y).toNat < (s.reg x).toNat then 0 else 1) ∧
    (x ≠ vf → ((t.reg x).toNat : Int) = ((s.reg y).toNat - (s.reg x).toNat : Int) % 256) ∧
    RegsKeptButFlagAnd x s t ∧ OnlyRegsDiffer s t ∧ t.draws = s.draws

/-- R112: half of V[X], VF written last with the old bit 0; Y plays no part. -/
def Obligations.ShrRegShiftsRight : Prop :=
  EncodedAs 0x8006 0xF00F (fun op => .shrReg (fieldX op) (fieldY op)) ∧
  ∀ (x y : Reg) (s : State), ∃ t, exec (.shrReg x y) s = .next t ∧
    (t.reg vf).toNat = (s.reg x).toNat % 2 ∧
    (x ≠ vf → (t.reg x).toNat = (s.reg x).toNat / 2) ∧
    RegsKeptButFlagAnd x s t ∧ OnlyRegsDiffer s t ∧ t.draws = s.draws

/-- R113: twice V[X] modulo 256, VF written last with the old bit 7; Y plays no part. -/
def Obligations.ShlRegShiftsLeft : Prop :=
  EncodedAs 0x800E 0xF00F (fun op => .shlReg (fieldX op) (fieldY op)) ∧
  ∀ (x y : Reg) (s : State), ∃ t, exec (.shlReg x y) s = .next t ∧
    (t.reg vf).toNat = (s.reg x).toNat / 128 ∧
    (x ≠ vf → (t.reg x).toNat = 2 * (s.reg x).toNat % 256) ∧
    RegsKeptButFlagAnd x s t ∧ OnlyRegsDiffer s t ∧ t.draws = s.draws

/-- R120: I ← zext_16(NNN), for every NNN. -/
def Obligations.LdISetsIndex : Prop :=
  EncodedAs 0xA000 0xF000 (fun op => .ldI (fieldNNN op)) ∧
  ∀ (nnn : BitVec 12) (s : State), ∃ t, exec (.ldI nnn) s = .next t ∧
    t.i.toNat = nnn.toNat ∧ t.pc = s.pc ∧ RegsKept s t ∧ StackKept s t ∧ ScreenKept s t ∧ SystemKept s t ∧
    t.draws = s.draws

/-- R130 and R131 in the model's form of the free draw (log 3): V[X] is the draw and NN, so no bit outside NN is set;
CXNN takes one fresh draw and no other instruction takes one. The draw itself is free: nothing is said of it on this
hardware, and over the parameter RAND every byte is admitted. -/
def Obligations.RndMasksOneFreshDraw : Prop :=
  EncodedAs 0xC000 0xF000 (fun op => .rnd (fieldX op) (fieldNN op)) ∧
  (∀ (x : Reg) (nn : Byte) (s : State), ∃ t, exec (.rnd x nn) s = .next t ∧
    t.reg x = Config.rand s.draws &&& nn ∧ t.reg x &&& ~~~nn = 0 ∧ (t.reg x).toNat ≤ nn.toNat ∧
    RegsKeptBut x s t ∧ OnlyRegsDiffer s t ∧ t.draws = s.draws + 1) ∧
  (∀ (i : Instr) (s t : State), (∀ x nn, i ≠ .rnd x nn) → exec i s = .next t → t.draws = s.draws) ∧
  (∀ (p : Params) (x : Reg) (nn : Byte) (s : State), ∃ t, execUnder p (.rnd x nn) s = .next t ∧
    t.reg x = p.rand s.draws &&& nn ∧ RegsKeptBut x s t ∧ OnlyRegsDiffer s t ∧ t.draws = s.draws + 1) ∧
  ∀ (r : Byte) (x : Reg) (nn : Byte) (s : State), ∃ (p : Params) (t : State),
    execUnder p (.rnd x nn) s = .next t ∧ t.reg x = r &&& nn

/-! ### The control-flow family -/

/-- R144. -/
def Obligations.JpSetsPc : Prop :=
  EncodedAs 0x1000 0xF000 (fun op => .jp (fieldNNN op)) ∧
  ∀ (nnn : BitVec 12) (s : State), ∃ t, exec (.jp nnn) s = .next t ∧
    t.pc.toNat = nnn.toNat ∧ OnlyPcDiffers s t

/-- R150: the offset is V0 whatever the top nibble of NNN, and the sum is not reduced modulo 4096. -/
def Obligations.JpV0AddsRegisterZero : Prop :=
  EncodedAs 0xB000 0xF000 (fun op => .jpV0 (fieldNNN op)) ∧
  ∀ (nnn : BitVec 12) (s : State), ∃ t, exec (.jpV0 nnn) s = .next t ∧
    t.pc.toNat = nnn.toNat + (s.reg 0).toNat ∧ OnlyPcDiffers s t

/-- R145 and R146: exactly one of 3XNN and 4XNN skips. -/
def Obligations.SkipsOnImmediate : Prop :=
  EncodedAs 0x3000 0xF000 (fun op => .seImm (fieldX op) (fieldNN op)) ∧
  EncodedAs 0x4000 0xF000 (fun op => .sneImm (fieldX op) (fieldNN op)) ∧
  ∀ (x : Reg) (nn : Byte) (s : State),
    (∃ t, exec (.seImm x nn) s = .next t ∧
      t.pc = (if s.reg x = nn then s.pc + 2 else s.pc) ∧ OnlyPcDiffers s t) ∧
    ∃ t, exec (.sneImm x nn) s = .next t ∧
      t.pc = (if s.reg x = nn then s.pc else s.pc + 2) ∧ OnlyPcDiffers s t

/-- R147 and R148; a nonzero N is no such instruction (R85). -/
def Obligations.SkipsOnRegister : Prop :=
  EncodedAs 0x5000 0xF00F (fun op => .seReg (fieldX op) (fieldY op)) ∧
  EncodedAs 0x9000 0xF00F (fun op => .sneReg (fieldX op) (fieldY op)) ∧
  (∀ op : Word, (fieldF op = 5 ∨ fieldF op = 9) → fieldN op ≠ 0 → decode op = .unknownInstruction) ∧
  ∀ (x y : Reg) (s : State),
    (∃ t, exec (.seReg x y) s = .next t ∧
      t.pc = (if s.reg x = s.reg y then s.pc + 2 else s.pc) ∧ OnlyPcDiffers s t) ∧
    ∃ t, exec (.sneReg x y) s = .next t ∧
      t.pc = (if s.reg x = s.reg y then s.pc else s.pc + 2) ∧ OnlyPcDiffers s t

/-- R151, R152 and R153: a valid key index decides by that key; for an index above 15 neither instruction skips. -/
def Obligations.SkipsOnKey : Prop :=
  EncodedAs 0xE09E 0xF0FF (fun op => .skp (fieldX op)) ∧
  EncodedAs 0xE0A1 0xF0FF (fun op => .sknp (fieldX op)) ∧
  ∀ (x : Reg) (s : State), ∃ t u, exec (.skp x) s = .next t ∧ exec (.sknp x) s = .next u ∧
    OnlyPcDiffers s t ∧ OnlyPcDiffers s u ∧
    (∀ k : Fin 16, (s.reg x).toNat = k.val →
      t.pc = (if s.key[k] = true then s.pc + 2 else s.pc) ∧
      u.pc = (if s.key[k] = true then s.pc else s.pc + 2)) ∧
    (15 < (s.reg x).toNat → t.pc = s.pc ∧ u.pc = s.pc)

/-- R143 (the rejection before the push is the spec's choice 92 D7, logs 16 and 19): with fewer than 16 entries PC is
pushed and PC ← NNN; with 16 StackOverflow is raised, and PC, SP and the stack are unchanged. What is recorded of
the error is the model's own field (log 2). -/
def Obligations.CallPushesOrOverflows : Prop :=
  EncodedAs 0x2000 0xF000 (fun op => .call (fieldNNN op)) ∧
  ∀ (nnn : BitVec 12) (s : State),
    (∀ h : s.sp < 16, ∃ t, exec (.call nnn) s = .next t ∧
      t.pc.toNat = nnn.toNat ∧ t.sp = s.sp + 1 ∧ t.stack[s.sp] = s.pc ∧
      (∀ k : Fin 16, k.val ≠ s.sp → t.stack[k] = s.stack[k]) ∧
      RegsKept s t ∧ t.i = s.i ∧ t.draws = s.draws ∧ ScreenKept s t ∧ SystemKept s t) ∧
    (s.sp = 16 → ∃ t, exec (.call nnn) s = .next t ∧ t.fault = 1 ∧ t.pc = s.pc ∧ t.loadable = s.loadable ∧
      t.errorInfo = some (.stackOverflow (s.pc - 2) (encode (.call nnn))) ∧ ErrorKept s t)

/-- R141 and R142 (this hardware's policy is the spec's choice 92 D8, log 6): a return pops PC; on an empty stack PC ← 0
under FALLBACK_ZERO, which is this hardware's, and under FAULT StackUnderflow is raised with PC, SP and the stack
unchanged. That PC is kept there is the spec's choice of PC after an error (92 D6, log 19); that the popped entry, dead
now, keeps its data is the model's choice (log 16; 93 A18 leaves dead entries any value). What is recorded of the error is
the model's own field (log 2). -/
def Obligations.RetPopsOrFallsBack : Prop :=
  EncodedAs 0x00EE 0xFFFF (fun _ => .ret) ∧
  (∀ s : State, exec .ret s = .next (retUnder .fallbackZero s)) ∧
  (∀ (p : Params) (s : State), execUnder p .ret s = .next (retUnder p.emptyRetPolicy s)) ∧
  (∀ (p : EmptyRetPolicy) (s : State), 0 < s.sp → ∀ h : s.sp ≤ 16,
    (retUnder p s).pc = s.stack[s.sp - 1] ∧ (retUnder p s).sp = s.sp - 1) ∧
  (∀ s : State, s.sp = 0 → (retUnder .fallbackZero s).pc = 0 ∧ (retUnder .fallbackZero s).sp = 0) ∧
  (∀ s : State, RegsKept s (retUnder .fallbackZero s) ∧ (retUnder .fallbackZero s).i = s.i ∧
    (retUnder .fallbackZero s).draws = s.draws ∧ (∀ k : Fin 16, (retUnder .fallbackZero s).stack[k] = s.stack[k]) ∧
    ScreenKept s (retUnder .fallbackZero s) ∧ SystemKept s (retUnder .fallbackZero s)) ∧
  ∀ s : State,
    (s.sp = 0 → (retUnder .fault s).fault = 6 ∧ (retUnder .fault s).pc = s.pc ∧
      (retUnder .fault s).loadable = s.loadable ∧
      (retUnder .fault s).errorInfo = some (.stackUnderflow (s.pc - 2) (encode .ret)) ∧ ErrorKept s (retUnder .fault s)) ∧
    (0 < s.sp → retUnder .fault s = retUnder .fallbackZero s)

/-- R154, which the spec marks as derived, for any parameters: after a call, any host operations but RESET (STEPs with KEY
and TIMER_TICK between them, R200 H-4) that do not return below it, and a return at the call's own depth, PC is back at
the address after the call and SP is back. First for the two meanings, at a state s whose PC is already A + 2; then for
the STEPs that fetch the call at A and the return. -/
def Obligations.CallThenReturn : Prop :=
  (∀ (p : Params) (nnn : BitVec 12) (s t u : State), s.sp < 16 → execUnder p (.call nnn) s = .next t →
    OpsAbove p (s.sp + 1) t u → u.sp = s.sp + 1 →
    ∃ w, execUnder p .ret u = .next w ∧ w.pc = s.pc ∧ w.sp = s.sp) ∧
  ∀ (p : Params) (nnn : BitVec 12) (s t u : State), s.sp < 16 → s.fault = 0 → fetch s = .ok (encode (.call nnn)) →
    stepUnder p s = .next t → OpsAbove p (s.sp + 1) t u → u.sp = s.sp + 1 → u.fault = 0 → fetch u = .ok 0x00EE →
    ∃ w, stepUnder p u = .next w ∧ w.pc = s.pc + 2 ∧ w.sp = s.sp ∧ w.fault = 0

/-- R141's corner case, which the spec marks as derived: under FALLBACK_ZERO, which is this hardware's policy (92 D8,
log 6), a return on an empty stack runs into VacantMemory at the next STEP, in every state that meets the machine's
invariant; that PC is then 2 is 92 D6 (log 19). Under FAULT the return itself latches 6, with PC = A + 2 (log 19) and
nothing else changed. -/
def Obligations.EmptyReturnRunsIntoVacantMemory : Prop :=
  (∀ s : State, s.Inv → s.fault = 0 → s.sp = 0 → fetch s = .ok 0x00EE →
    ∃ t u, step s = .next t ∧ t.pc = 0 ∧ t.fault = 0 ∧ step t = .next u ∧ u.fault = 3 ∧ u.pc = 2) ∧
  ∀ (p : Params) (s : State), s.InvUnder p → s.fault = 0 → s.sp = 0 → fetch s = .ok 0x00EE →
    (p.emptyRetPolicy = .fallbackZero → ∃ t u, stepUnder p s = .next t ∧ t.pc = 0 ∧ t.fault = 0 ∧
      stepUnder p t = .next u ∧ u.fault = 3 ∧ u.pc = 2) ∧
    (p.emptyRetPolicy = .fault → ∃ t, stepUnder p s = .next t ∧ t.fault = 6 ∧ t.pc = s.pc + 2 ∧ ErrorKept s t ∧
      stepUnder p t = .next t)

/-! ### The display family -/

/-- R170. -/
def Obligations.ClsTurnsEveryPixelOff : Prop :=
  EncodedAs 0x00E0 0xFFFF (fun _ => .cls) ∧
  ∀ s : State, ∃ t, exec .cls s = .next t ∧ (∀ x y, x < 64 → y < 32 → pixel t.fb x y = false) ∧
    fbRead t = List.replicate 2048 false ∧
    t.pc = s.pc ∧ t.i = s.i ∧ t.draws = s.draws ∧ RegsKept s t ∧ StackKept s t ∧ SystemKept s t

/-- R171, R173, R174 and R175 for a sprite whose rows all lie in memory: each pixel is XORed with the sprite's bit at
(V[X] mod 64, V[Y] mod 32), nothing wraps mid-draw, and VF, written last, says whether a lit pixel was turned off.
That the coordinates are read before VF is written is the spec's choice 92 D15 (log 13), that all N rows count is 92 D16
(log 12). -/
def Obligations.DrwXorsSpriteWithCollision : Prop :=
  EncodedAs 0xD000 0xF000 (fun op => .drw (fieldX op) (fieldY op) (fieldN op).toNat) ∧
  ∀ (x y : Reg) (n : Nat) (s : State), (∀ r, r < n → s.i.toNat + r ≤ 0xFFF) →
    ∃ t, exec (.drw x y n) s = .next t ∧
      (∀ px py, px < 64 → py < 32 → pixel t.fb px py = (pixel s.fb px py ^^
        spriteBit (spriteRows s n) ((s.reg x).toNat % 64) ((s.reg y).toNat % 32) px py)) ∧
      (t.reg vf = 0 ∨ t.reg vf = 1) ∧
      (t.reg vf = 1 ↔ ∃ px py, px < 64 ∧ py < 32 ∧ pixel s.fb px py = true ∧ pixel t.fb px py = false) ∧
      RegsKeptBut vf s t ∧ t.pc = s.pc ∧ t.i = s.i ∧ t.draws = s.draws ∧ StackKept s t ∧ SystemKept s t

/-- R172 (92 D16, log 12): a sprite row above 0xFFF, drawn or not, raises AddressFault (92 D3, log 11) at the lowest such
row before any pixel or VF is written; while I ≤ 0xFFF that address is 0x1000. That PC keeps its advanced value is 92 D6
(log 19); the address is recorded in the model's own field (log 2). -/
def Obligations.DrwOutsideMemoryFaults : Prop :=
  ∀ (x y : Reg) (n : Nat) (s : State), (∃ r, r < n ∧ 0xFFF < s.i.toNat + r) →
    ∃ t bad, exec (.drw x y n) s = .next t ∧ t.fault = 5 ∧ t.pc = s.pc ∧ t.loadable = s.loadable ∧
      t.errorInfo = some (.drawAddressFault (s.pc - 2) (encode (.drw x y n)) bad) ∧ ErrorKept s t ∧
      (∃ r, r < n ∧ bad = s.i + BitVec.ofNat 16 r ∧ 0xFFF < s.i.toNat + r ∧ ∀ q, q < r → s.i.toNat + q ≤ 0xFFF) ∧
      (s.i.toNat ≤ 0xFFF → bad = 0x1000)

/-- A corner case of R171: drawing the same sprite twice at the same place restores the screen, and the second draw
collides exactly if the first lit a pixel. X and Y are not VF, since the first draw writes VF. -/
def Obligations.DrawingTwiceRestoresScreen : Prop :=
  ∀ (x y : Reg) (n : Nat) (s : State), x ≠ vf → y ≠ vf → (∀ r, r < n → s.i.toNat + r ≤ 0xFFF) →
    ∃ t u, exec (.drw x y n) s = .next t ∧ exec (.drw x y n) t = .next u ∧ ScreenKept s u ∧
      (u.reg vf = 1 ↔ ∃ px py, px < 64 ∧ py < 32 ∧ pixel s.fb px py = false ∧ pixel t.fb px py = true)

/-! ### Whole-machine rules -/

/-- R30, R32, R36, R57: no instruction writes memory, a timer, a key or LOADABLE; a STEP, too, leaves memory, timers and
keys alone. LOADABLE is the spec's own element (92 D14, log 10). -/
def Obligations.InstructionsNeverWriteHostState : Prop :=
  (∀ (i : Instr) (s t : State), exec i s = .next t → t.mem = s.mem ∧ HostSideKept s t ∧ t.loadable = s.loadable) ∧
  ∀ s t : State, step s = .next t → t.mem = s.mem ∧ HostSideKept s t

/-- R25: what each instruction may do to PC, which already holds A + 2. That a call that overflows and a draw that faults
keep PC is the spec's choice of PC after an error (92 D6, D7, log 19), and PC ← 0 on an empty stack is 92 D8 (log 6). -/
def Obligations.PcIsWrittenOnlyByControlFlow : Prop :=
  ∀ (i : Instr) (s t : State), exec i s = .next t →
    match i with
    | .jp nnn => t.pc.toNat = nnn.toNat
    | .call nnn => t.pc.toNat = nnn.toNat ∨ (t.fault = 1 ∧ t.pc = s.pc)
    | .jpV0 nnn => t.pc.toNat = nnn.toNat + (s.reg 0).toNat
    | .ret => (0 < s.sp ∧ t.pc = s.top) ∨ (s.sp = 0 ∧ t.pc = 0)
    | .seImm _ _ | .sneImm _ _ | .seReg _ _ | .sneReg _ _ | .skp _ | .sknp _ => t.pc = s.pc ∨ t.pc = s.pc + 2
    | .cls | .ldImm _ _ | .addImm _ _ | .ldReg _ _ | .orReg _ _ | .andReg _ _ | .xorReg _ _ | .addReg _ _
    | .subReg _ _ | .shrReg _ _ | .subnReg _ _ | .shlReg _ _ | .ldI _ | .rnd _ _ | .drw _ _ _ => t.pc = s.pc

/-- R27: only ANNN writes I, and R29: only 2NNN pushes and only 00EE pops, one entry each. That the entries kept include
the dead ones, such as the one 00EE pops, is the model's choice (log 16; 93 A18 leaves dead entries any value). -/
def Obligations.IndexAndStackWriters : Prop :=
  ∀ (i : Instr) (s t : State), exec i s = .next t →
    ((∀ nnn, i ≠ .ldI nnn) → t.i = s.i) ∧
    ((∀ nnn, i ≠ .call nnn) → ∀ k : Fin 16, t.stack[k] = s.stack[k]) ∧
    ((∀ nnn, i ≠ .call nnn) → t.sp ≤ s.sp) ∧
    (i ≠ .ret → s.sp ≤ t.sp) ∧ t.sp ≤ s.sp + 1 ∧ s.sp ≤ t.sp + 1

/-- R31: only 00E0 and DXYN write the framebuffer. -/
def Obligations.ScreenWriters : Prop :=
  ∀ (i : Instr) (s t : State), i ≠ .cls → (∀ x y n, i ≠ .drw x y n) → exec i s = .next t → t.fb = s.fb

/-- R23: the registers an instruction writes. -/
def Obligations.RegisterWriters : Prop :=
  ∀ (i : Instr) (s t : State), exec i s = .next t →
    match i with
    | .ldImm x _ | .addImm x _ | .rnd x _ | .ldReg x _ | .orReg x _ | .andReg x _ | .xorReg x _ => RegsKeptBut x s t
    | .addReg x _ | .subReg x _ | .subnReg x _ | .shrReg x _ | .shlReg x _ => RegsKeptButFlagAnd x s t
    | .drw _ _ _ => RegsKeptBut vf s t
    | .cls | .ret | .jp _ | .call _ | .seImm _ _ | .sneImm _ _ | .seReg _ _ | .sneReg _ _ | .ldI _ | .jpV0 _
    | .skp _ | .sknp _ => RegsKept s t

/-- R30 and R227: the timers affect no instruction, no register and no pixel: a STEP from a state with other timer
values differs in them alone. For CXNN this is said given the same draw: the two states have equal draw counts, and R131
allows different draws (log 3). -/
def Obligations.TimersAreInvisibleToSteps : Prop :=
  ∀ (s t : State) (d e : Byte), step s = .next t → step { s with dt := d, st := e } = .next { t with dt := d, st := e }

/-- R32: only EX9E and EXA1 read the key state: any other instruction does the same whatever keys are pressed. For CXNN
this is said given the same draw (log 3). -/
def Obligations.KeysAreReadOnlyByKeySkips : Prop :=
  ∀ (i : Instr) (s t : State) (k : Vector Bool 16), (∀ x, i ≠ .skp x) → (∀ x, i ≠ .sknp x) → exec i s = .next t →
    exec i { s with key := k } = .next { t with key := k }

/-- R28: a dead stack entry is read by no rule: two states that agree in all but dead entries still do after a STEP. For
CXNN this is said given the same draw (log 3). -/
def Obligations.DeadStackEntriesAreInvisible : Prop :=
  ∀ s s' t : State, s.sp ≤ 16 → SameButDeadStack s s' → step s = .next t →
    ∃ t', step s' = .next t' ∧ SameButDeadStack t t'

/-! ### Invariants -/

/-- The machine's invariant holds after RESET, on this hardware and for any parameters. FAULT and LOADABLE in it are the
spec's own elements (92 D4, D5, D14, logs 9, 10), the record FAULT agrees with is the model's (log 2). -/
def Obligations.InvHoldsAtReset : Prop :=
  State.reset.Inv ∧ ∀ p : Params, (State.resetUnder p).InvUnder p

/-- Every STEP keeps the machine's invariant, on this hardware and for any parameters: PC ≤ 0x10FE, I ≤ 0xFFF, SP ≤ 16,
memory canonical, FAULT a real code (R26, R27, R28, R35, R58). FAULT and LOADABLE are the spec's own elements (92 D4, D5,
D14, logs 9, 10), the record FAULT agrees with is the model's (log 2). -/
def Obligations.StepKeepsInv : Prop :=
  (∀ s t : State, s.Inv → step s = .next t → t.Inv) ∧
  ∀ (p : Params) (s t : State), s.InvUnder p → stepUnder p s = .next t → t.InvUnder p

/-- Every host operation keeps it, LOAD of any image and RESET among them, on this hardware and for any parameters. The
elements that are the spec's own or the model's are named at `StepKeepsInv`. -/
def Obligations.HostOperationsKeepInv : Prop :=
  (∀ (o : HostOp) (s t : State) (r : HostResult), s.Inv → perform o s = .next (t, r) → t.Inv) ∧
  ∀ (p : Params) (o : HostOp) (s t : State) (r : HostResult),
    s.InvUnder p → performUnder p o s = .next (t, r) → t.InvUnder p

/-- R227, which the spec marks as derived: under TIMER_UNDERFLOW = SATURATE, which is this hardware's setting (92 D12,
log 7), DT = ST = 0 in every state that any sequence of host operations reaches from RESET; under WRAP a session reaches
other values. -/
def Obligations.TimersAreZeroInEverySession : Prop :=
  (∀ s : State, Reachable s → TimersZero s) ∧
  (∀ (p : Params) (s : State), p.timerUnderflow = .saturate → ReachableUnder p s → TimersZero s) ∧
  ∀ p : Params, p.timerUnderflow = .wrap → ∃ s, ReachableUnder p s ∧ s.dt = 0xFF ∧ s.st = 0xFF

/-! ### Host operations -/

/-- R42 and R240: the value of every element after RESET, from any state and for any parameters, of which FONT is the one
that counts. This hardware's FONT has the source's glyph 0 and PRESUMED glyphs 1–F (log 5); KEY, FAULT and LOADABLE are
the spec's choices (92 D5, D13, D14, logs 8, 9, 10). The first clause is this hardware, the last any parameters; that the
first also keeps the model's own count of draws is the model's choice (log 4), no rule of the spec. -/
def Obligations.ResetGivesEveryElementItsValue : Prop :=
  (∀ s : State, perform .reset s = .next ({ State.reset with draws := s.draws }, .none)) ∧
  Config.params.font.toList = Config.font ∧ Config.font.take 5 = [0xF0, 0x90, 0x90, 0x90, 0xF0] ∧
  ∀ (p : Params) (s : State), ∃ t, performUnder p .reset s = .next (t, .none) ∧
    (∀ k (h : k < 80), Memory.read t.mem (0x050 + k) = p.font[k]) ∧
    (∀ a, a < 0x050 ∨ 0x09F < a → Memory.read t.mem a = 0) ∧
    (∀ x : Reg, t.reg x = 0) ∧ t.pc = 0x200 ∧ t.i = 0 ∧ t.sp = 0 ∧ (∀ k : Fin 16, t.stack[k] = 0) ∧
    t.dt = 0 ∧ t.st = 0 ∧ (∀ x y, pixel t.fb x y = false) ∧ (∀ k : Fin 16, t.key[k] = false) ∧
    t.fault = 0 ∧ t.loadable = true

/-- R191: LOAD copies the image to 0x200 upwards and nowhere else; an image of more than 3584 bytes raises LoadingError
and writes no byte, and its length is recorded in the model's own field (log 2). -/
def Obligations.LoadCopiesImageOrFails : Prop :=
  ∀ (s : State) (image : List Byte), s.loadable = true → s.fault = 0 → Memory.wf s.mem →
    (image.length ≤ 3584 → ∃ t, perform (.load image) s = .next (t, .status 0) ∧
      (∀ j (h : j < image.length), Memory.read t.mem (0x200 + j) = image[j]) ∧
      (∀ a, a < 0x200 ∨ 0x200 + image.length ≤ a → Memory.read t.mem a = Memory.read s.mem a) ∧
      t = { s with loadable := false, mem := t.mem }) ∧
    (3584 < image.length → ∃ t, perform (.load image) s = .next (t, .status 2) ∧ t.fault = 2 ∧ t.loadable = false ∧
      t.errorInfo = some (.loadingError image.length) ∧ t.mem = s.mem ∧ ErrorKept s t ∧ t.pc = s.pc)

/-- R36 and R192 (92 D14, log 10): a LOAD is refused while LOADABLE = 0, and the first LOAD, good or failed, and the
first STEP close LOADABLE. -/
def Obligations.LoadIsAcceptedOnlyOnce : Prop :=
  (∀ (s : State) (image : List Byte), s.loadable = false → perform (.load image) s = .refused .loadNotAccepted) ∧
  (∀ (s t : State) (image : List Byte) (r : HostResult), perform (.load image) s = .next (t, r) → t.loadable = false) ∧
  ∀ s t : State, s.fault = 0 → step s = .next t → t.loadable = false

/-- R226 (this hardware's SATURATE is the spec's choice 92 D12, log 7): the countdown under both settings, of the selected
timers alone, in every state. -/
def Obligations.TimerTickCountsDown : Prop :=
  (∀ (u : TimerUnderflow) (t : Byte), 0 < t.toNat → (countdown u t).toNat = t.toNat - 1) ∧
  countdown .saturate 0 = 0 ∧ countdown .wrap 0 = 0xFF ∧
  (∀ (d e : Bool) (s : State), perform (.timerTick d e) s = .next (tickUnder .saturate d e s, .none)) ∧
  (∀ (p : Params) (d e : Bool) (s : State),
    performUnder p (.timerTick d e) s = .next (tickUnder p.timerUnderflow d e s, .none)) ∧
  ∀ (u : TimerUnderflow) (d e : Bool) (s : State),
    (tickUnder u d e s).dt = (if d then countdown u s.dt else s.dt) ∧
    (tickUnder u d e s).st = (if e then countdown u s.st else s.st) ∧
    tickUnder u d e s = { s with dt := (tickUnder u d e s).dt, st := (tickUnder u d e s).st }

/-- R195 (the refusal above 15 is the spec's choice 92 D24, log 10): KEY sets its key and nothing else. -/
def Obligations.KeySetsOneKey : Prop :=
  (∀ (k : Fin 16) (p : Bool) (s : State), ∃ t, perform (.key k.val p) s = .next (t, .none) ∧ t.key[k] = p ∧
    (∀ j : Fin 16, j ≠ k → t.key[j] = s.key[j]) ∧ t = { s with key := t.key }) ∧
  ∀ (k : Nat) (p : Bool) (s : State), 16 ≤ k → perform (.key k p) s = .refused (.keyIndexOutOfRange k)

/-- R196: FB_READ gives 2048 bits, element x + 64·y for pixel (x, y), and changes no state. -/
def Obligations.FbReadIsRowMajor : Prop :=
  ∀ s : State, perform .fbRead s = .next (s, .pixels (fbRead s)) ∧ (fbRead s).length = 2048 ∧
    ∀ x y, x < 64 → y < 32 → (fbRead s)[x + 64 * y]? = some (pixel s.fb x y)

/-- R199 (92 D29): in the halt loop every further STEP leaves every element as it is. LOADABLE, the spec's own
element (92 D14, log 10), is 0 in a run, since the LOAD closed it. -/
def Obligations.HaltLoopRepeatsForever : Prop :=
  ∀ s : State, Halted s → s.loadable = false → step s = .next s

/-- R193 and R197 (the latch is the spec's choice 92 D5, log 9): the host's STEP performs the STEP cycle and returns the
FAULT code of the state it leaves, 0 on success; STATUS returns FAULT and changes no state, in every state. -/
def Obligations.StepAndStatusReturnTheFaultCode : Prop :=
  (∀ s : State, ∃ t, step s = .next t ∧ perform .step s = .next (t, .status t.fault) ∧
    perform .status s = .next (s, .status s.fault)) ∧
  (∀ s t : State, step s = .next t → perform .step s = .next (t, .status t.fault)) ∧
  ∀ (p : Params) (s : State), (∃ t, stepUnder p s = .next t ∧ performUnder p .step s = .next (t, .status t.fault)) ∧
    performUnder p .status s = .next (s, .status s.fault)

/-- R11: this hardware is the machine of the parameters the spec gives it, and the parameters reach what R11 says and
nothing else: FONT the memory after RESET, RAND the draw of CXNN, EMPTY_RET_POLICY 00EE on an empty stack, TIMER_UNDERFLOW
the tick. The values are the spec's choices (92 D8, D12, D36, logs 6, 7, 14). -/
def Obligations.ParametersGiveThisHardware : Prop :=
  Config.params.emptyRetPolicy = .fallbackZero ∧ Config.params.timerUnderflow = .saturate ∧
  Config.params.quirkVariant = .rite ∧ Config.params.rand = Config.rand ∧ Config.params.font.toList = Config.font ∧
  (∀ (i : Instr) (s : State), execUnder Config.params i s = exec i s) ∧
  (∀ s : State, stepUnder Config.params s = step s) ∧
  State.resetUnder Config.params = State.reset ∧
  (∀ (p : Params) (i : Instr) (s : State), (i = .ret → 0 < s.sp) → (∀ x nn, i ≠ .rnd x nn) →
    execUnder p i s = exec i s) ∧
  ∀ (p : Params) (o : HostOp) (s : State), o ≠ .reset → o ≠ .step → (∀ d e, o ≠ .timerTick d e) →
    performUnder p o s = perform o s
end

