-- ==== Sys2Proof/Laws/Decode.lean ====
section
/-! SUPPORT. The fields of a word that is laid out field by field, and a word as its four nibbles. -/

namespace Sys2Proof

/-- A word is its four nibbles side by side (spec 30_encoding.md R70). -/
theorem wordXYN_fields (op : Word) : wordXYN (fieldF op) (fieldX op) (fieldY op) (fieldN op) = op := by
  apply BitVec.eq_of_getLsbD_eq
  intro k hk
  simp only [wordXYN, fieldF, fieldX, fieldY, fieldN, BitVec.getLsbD_append, BitVec.ofFin_toFin,
    BitVec.getLsbD_extractLsb']
  interval_cases k <;> simp

/-- A word is its top two nibbles and its low byte (R70). -/
theorem wordXNN_fields (op : Word) : wordXNN (fieldF op) (fieldX op) (fieldNN op) = op := by
  apply BitVec.eq_of_getLsbD_eq
  intro k hk
  simp only [wordXNN, fieldF, fieldX, fieldNN, BitVec.getLsbD_append, BitVec.ofFin_toFin,
    BitVec.getLsbD_extractLsb']
  interval_cases k <;> simp

/-- A word is its family and its low 12 bits (R70). -/
theorem wordNNN_fields (op : Word) : wordNNN (fieldF op) (fieldNNN op) = op := by
  apply BitVec.eq_of_getLsbD_eq
  intro k hk
  simp only [wordNNN, fieldF, fieldNNN, BitVec.getLsbD_append, BitVec.getLsbD_extractLsb']
  interval_cases k <;> simp

/-- The two stored bytes of a word make the word again (20_memory.md R55). -/
@[simp] theorem wordOfBytes_hiByte_loByte (op : Word) : wordOfBytes (hiByte op) (loByte op) = op := by
  apply BitVec.eq_of_getLsbD_eq
  intro k hk
  simp only [wordOfBytes, hiByte, loByte, BitVec.getLsbD_append, BitVec.getLsbD_extractLsb']
  interval_cases k <;> simp

section Fields

variable (f : BitVec 4) (x y : Reg) (n : BitVec 4) (nn : Byte) (nnn : BitVec 12)

@[simp] theorem fieldF_wordXYN : fieldF (wordXYN f x y n) = f := by
  apply BitVec.eq_of_getLsbD_eq
  intro k hk
  simp only [wordXYN, fieldF, BitVec.getLsbD_append, BitVec.getLsbD_extractLsb']
  interval_cases k <;> simp

@[simp] theorem fieldX_wordXYN : fieldX (wordXYN f x y n) = x := by
  refine congrArg BitVec.toFin (a₂ := (BitVec.ofFin x : BitVec 4)) (BitVec.eq_of_getLsbD_eq fun k hk => ?_)
  simp only [wordXYN, BitVec.getLsbD_append, BitVec.getLsbD_extractLsb']
  interval_cases k <;> simp

@[simp] theorem fieldY_wordXYN : fieldY (wordXYN f x y n) = y := by
  refine congrArg BitVec.toFin (a₂ := (BitVec.ofFin y : BitVec 4)) (BitVec.eq_of_getLsbD_eq fun k hk => ?_)
  simp only [wordXYN, BitVec.getLsbD_append, BitVec.getLsbD_extractLsb']
  interval_cases k <;> simp

@[simp] theorem fieldN_wordXYN : fieldN (wordXYN f x y n) = n := by
  apply BitVec.eq_of_getLsbD_eq
  intro k hk
  simp only [wordXYN, fieldN, BitVec.getLsbD_append, BitVec.getLsbD_extractLsb']
  interval_cases k <;> simp

@[simp] theorem fieldF_wordXNN : fieldF (wordXNN f x nn) = f := by
  apply BitVec.eq_of_getLsbD_eq
  intro k hk
  simp only [wordXNN, fieldF, BitVec.getLsbD_append, BitVec.getLsbD_extractLsb']
  interval_cases k <;> simp

@[simp] theorem fieldX_wordXNN : fieldX (wordXNN f x nn) = x := by
  refine congrArg BitVec.toFin (a₂ := (BitVec.ofFin x : BitVec 4)) (BitVec.eq_of_getLsbD_eq fun k hk => ?_)
  simp only [wordXNN, BitVec.getLsbD_append, BitVec.getLsbD_extractLsb']
  interval_cases k <;> simp

@[simp] theorem fieldNN_wordXNN : fieldNN (wordXNN f x nn) = nn := by
  apply BitVec.eq_of_getLsbD_eq
  intro k hk
  simp only [wordXNN, fieldNN, BitVec.getLsbD_append, BitVec.getLsbD_extractLsb']
  interval_cases k <;> simp

@[simp] theorem fieldF_wordNNN : fieldF (wordNNN f nnn) = f := by
  apply BitVec.eq_of_getLsbD_eq
  intro k hk
  simp only [wordNNN, fieldF, BitVec.getLsbD_append, BitVec.getLsbD_extractLsb']
  interval_cases k <;> simp

@[simp] theorem fieldNNN_wordNNN : fieldNNN (wordNNN f nnn) = nnn := by
  apply BitVec.eq_of_getLsbD_eq
  intro k hk
  simp only [wordNNN, fieldNNN, BitVec.getLsbD_append, BitVec.getLsbD_extractLsb']
  interval_cases k <;> simp

end Fields

/-- Which row of the opcode map an instruction stands for: its pattern and its mask (R80). -/
def Instr.row : Instr → Word × Word
  | .cls => (0x00E0, 0xFFFF)
  | .ret => (0x00EE, 0xFFFF)
  | .jp _ => (0x1000, 0xF000)
  | .call _ => (0x2000, 0xF000)
  | .seImm _ _ => (0x3000, 0xF000)
  | .sneImm _ _ => (0x4000, 0xF000)
  | .seReg _ _ => (0x5000, 0xF00F)
  | .ldImm _ _ => (0x6000, 0xF000)
  | .addImm _ _ => (0x7000, 0xF000)
  | .ldReg _ _ => (0x8000, 0xF00F)
  | .orReg _ _ => (0x8001, 0xF00F)
  | .andReg _ _ => (0x8002, 0xF00F)
  | .xorReg _ _ => (0x8003, 0xF00F)
  | .addReg _ _ => (0x8004, 0xF00F)
  | .subReg _ _ => (0x8005, 0xF00F)
  | .shrReg _ _ => (0x8006, 0xF00F)
  | .subnReg _ _ => (0x8007, 0xF00F)
  | .shlReg _ _ => (0x800E, 0xF00F)
  | .sneReg _ _ => (0x9000, 0xF00F)
  | .ldI _ => (0xA000, 0xF000)
  | .jpV0 _ => (0xB000, 0xF000)
  | .rnd _ _ => (0xC000, 0xF000)
  | .drw _ _ _ => (0xD000, 0xF000)
  | .skp _ => (0xE09E, 0xF0FF)
  | .sknp _ => (0xE0A1, 0xF0FF)

/-! Masking a word: what the three masks of the opcode map say of its fields (R80). -/

theorem and_F000_iff (op : Word) (f : BitVec 4) :
    op &&& 0xF000#16 = wordNNN f 0 ↔ fieldF op = f := by
  constructor
  · intro h
    have := congrArg fieldF h
    rw [fieldF_wordNNN] at this
    rw [← this]
    apply BitVec.eq_of_getLsbD_eq
    intro k hk
    simp only [fieldF, BitVec.getLsbD_extractLsb', BitVec.getLsbD_and]
    interval_cases k <;> simp
  · rintro rfl
    apply BitVec.eq_of_getLsbD_eq
    intro k hk
    simp only [wordNNN, fieldF, BitVec.getLsbD_append, BitVec.getLsbD_extractLsb', BitVec.getLsbD_and]
    interval_cases k <;> simp

theorem and_F00F_iff (op : Word) (f n : BitVec 4) :
    op &&& 0xF00F#16 = wordXYN f 0 0 n ↔ fieldF op = f ∧ fieldN op = n := by
  constructor
  · intro h
    have h1 := congrArg fieldF h
    have h2 := congrArg fieldN h
    rw [fieldF_wordXYN] at h1
    rw [fieldN_wordXYN] at h2
    rw [← h1, ← h2]
    constructor <;>
    · apply BitVec.eq_of_getLsbD_eq
      intro k hk
      simp only [fieldF, fieldN, BitVec.getLsbD_extractLsb', BitVec.getLsbD_and]
      interval_cases k <;> simp
  · rintro ⟨rfl, rfl⟩
    apply BitVec.eq_of_getLsbD_eq
    intro k hk
    simp only [wordXYN, fieldF, fieldN, BitVec.getLsbD_append, BitVec.getLsbD_extractLsb', BitVec.getLsbD_and]
    interval_cases k <;> simp

theorem and_F0FF_iff (op : Word) (f : BitVec 4) (nn : Byte) :
    op &&& 0xF0FF#16 = wordXNN f 0 nn ↔ fieldF op = f ∧ fieldNN op = nn := by
  constructor
  · intro h
    have h1 := congrArg fieldF h
    have h2 := congrArg fieldNN h
    rw [fieldF_wordXNN] at h1
    rw [fieldNN_wordXNN] at h2
    rw [← h1, ← h2]
    constructor <;>
    · apply BitVec.eq_of_getLsbD_eq
      intro k hk
      simp only [fieldF, fieldNN, BitVec.getLsbD_extractLsb', BitVec.getLsbD_and]
      interval_cases k <;> simp
  · rintro ⟨rfl, rfl⟩
    apply BitVec.eq_of_getLsbD_eq
    intro k hk
    simp only [wordXNN, fieldF, fieldNN, BitVec.getLsbD_append, BitVec.getLsbD_extractLsb', BitVec.getLsbD_and]
    interval_cases k <;> simp

end Sys2Proof
end

