-- ==== Sys2Proof/Laws/Display.lean ====
section
/-! SUPPORT. The collision detector, pixel by pixel (spec 42_display.md R173–R175). -/

namespace Sys2Proof.Machine

/-- A pixel outside the grid is off. -/
theorem pixel_outside {fb : Screen} {x y : Nat} (h : ¬(x < 64 ∧ y < 32)) : pixel fb x y = false := dif_neg h

theorem pixel_inside {fb : Screen} {x y : Nat} (hx : x < 64) (hy : y < 32) : pixel fb x y = (fb[y])[x] :=
  dif_pos ⟨hx, hy⟩

@[simp] theorem pixel_blankScreen (x y : Nat) : pixel blankScreen x y = false := by
  unfold pixel blankScreen
  split <;> simp

/-- Everything `plot` does to the screen: the pixel at (x, y), if inside the grid, is XORed. -/
theorem pixel_plot (c : Canvas) (x y x' y' : Nat) :
    pixel (plot c x y).fb x' y' = (pixel c.fb x' y' ^^ decide (x' = x ∧ y' = y ∧ x < 64 ∧ y < 32)) := by
  unfold plot
  split
  · next h =>
    by_cases h' : x' < 64 ∧ y' < 32
    · rw [pixel_inside h'.1 h'.2, pixel_inside h'.1 h'.2]
      by_cases hy : y = y'
      · subst hy
        by_cases hx : x = x'
        · subst hx; simp [h]
        · simp [hx, Ne.symm hx]
      · simp [hy, Ne.symm hy]
    · rw [pixel_outside h', pixel_outside h']
      simp only [Bool.false_xor, Bool.false_eq, decide_eq_false_iff_not]
      omega
  · next h =>
    have : ¬(x' = x ∧ y' = y ∧ x < 64 ∧ y < 32) := fun k => h k.2.2
    simp [this]

/-- Everything `plot` does to the collision: raised if the pixel was on, never lowered. -/
theorem collide_plot (c : Canvas) (x y : Nat) : (plot c x y).collide = (c.collide || pixel c.fb x y) := by
  unfold plot pixel
  split <;> simp

/-- The bit a row byte at column x0 has at column x. -/
def rowBit (row : Byte) (x0 x : Nat) : Bool := decide (x0 ≤ x ∧ x < x0 + 8) && row.getLsbD (7 - (x - x0))

theorem drawRow_prefix (c : Canvas) (x0 y : Nat) (row : Byte) : ∀ m, m ≤ 8 →
    let d := (List.range m).foldl (fun c b => if row.getLsbD (7 - b) then plot c (x0 + b) y else c) c
    (∀ x' y', pixel d.fb x' y' =
      (pixel c.fb x' y' ^^ decide (y' = y ∧ x' < x0 + m ∧ x' < 64 ∧ y < 32 ∧ rowBit row x0 x' = true))) ∧
    (d.collide = true ↔ c.collide = true ∨ ∃ x', x' < x0 + m ∧ rowBit row x0 x' = true ∧ pixel c.fb x' y = true) := by
  intro m
  induction m with
  | zero =>
    intro _
    have key : ∀ x', x' < x0 → rowBit row x0 x' = false := fun x' h => by simp [rowBit]; omega
    refine ⟨fun x' y' => ?_, ?_⟩
    · have : ¬(y' = y ∧ x' < x0 + 0 ∧ x' < 64 ∧ y < 32 ∧ rowBit row x0 x' = true) := by
        rintro ⟨-, h, -, -, h'⟩; rw [key x' (by omega)] at h'; exact absurd h' (by decide)
      rw [decide_eq_false this, Bool.xor_false]
      rfl
    · constructor
      · exact .inl
      · rintro (h | ⟨x', h, h', -⟩)
        · exact h
        · rw [key x' (by omega)] at h'; exact absurd h' (by decide)
  | succ m ih =>
    intro hm
    obtain ⟨ihp, ihc⟩ := ih (by omega)
    have hb : rowBit row x0 (x0 + m) = row.getLsbD (7 - m) := by
      simp [rowBit, show x0 + m < x0 + 8 by omega]
    have split_lt : ∀ x', x' < x0 + (m + 1) ↔ x' < x0 + m ∨ x' = x0 + m := fun x' => by omega
    simp only [List.range_succ, List.foldl_append, List.foldl_cons, List.foldl_nil]
    generalize (List.range m).foldl _ c = d at ihp ihc
    cases hbit : row.getLsbD (7 - m) with
    | false =>
      rw [hbit] at hb
      simp only [Bool.false_eq_true, if_false]
      refine ⟨fun x' y' => ?_, ?_⟩
      · rw [ihp]
        congr 1
        rw [decide_eq_decide, split_lt]
        constructor
        · rintro ⟨h1, h2, h3⟩; exact ⟨h1, .inl h2, h3⟩
        · rintro ⟨h1, h2 | rfl, h3, h4, h5⟩
          · exact ⟨h1, h2, h3, h4, h5⟩
          · rw [hb] at h5; exact absurd h5 (by decide)
      · rw [ihc]
        constructor
        · exact Or.imp_right fun ⟨x', h, h'⟩ => ⟨x', by omega, h'⟩
        · refine Or.imp_right fun ⟨x', h, h1, h2⟩ => ⟨x', ?_, h1, h2⟩
          rcases (split_lt x').mp h with h | rfl
          · exact h
          · rw [hb] at h1; exact absurd h1 (by decide)
    | true =>
      rw [hbit] at hb
      simp only [if_true]
      refine ⟨fun x' y' => ?_, ?_⟩
      · rw [pixel_plot, ihp]
        by_cases hx : x' = x0 + m
        · subst hx
          by_cases hy : y' = y
          · subst hy
            by_cases h64 : x0 + m < 64 <;> by_cases h32 : y' < 32 <;> simp [hb, h64, h32]
          · simp [hy]
        · simp [hx, split_lt]
      · rw [collide_plot, Bool.or_eq_true, ihc, ihp]
        have hno : ¬(y = y ∧ x0 + m < x0 + m ∧ x0 + m < 64 ∧ y < 32 ∧ rowBit row x0 (x0 + m) = true) := by omega
        rw [decide_eq_false hno, Bool.xor_false, or_assoc]
        refine or_congr_right ?_
        constructor
        · rintro (⟨x', h, h'⟩ | h)
          · exact ⟨x', by omega, h'⟩
          · exact ⟨x0 + m, by omega, hb, h⟩
        · rintro ⟨x', h, h1, h2⟩
          rcases (split_lt x').mp h with h | rfl
          · exact .inl ⟨x', h, h1, h2⟩
          · exact .inr h2

/-- Everything `drawRow` does to the screen. -/
theorem pixel_drawRow (c : Canvas) (x0 y : Nat) (row : Byte) {x' y' : Nat} (hx : x' < 64) (hy : y' < 32) :
    pixel (drawRow c x0 y row).fb x' y' = (pixel c.fb x' y' ^^ (decide (y' = y) && rowBit row x0 x')) := by
  rw [drawRow, (drawRow_prefix c x0 y row 8 le_rfl).1]
  congr 1
  by_cases h : y' = y
  · subst h
    cases hr : rowBit row x0 x' with
    | false => simp
    | true =>
      have : x' < x0 + 8 := by simp [rowBit] at hr; omega
      simp [this, hx, hy]
  · simp [h]

/-- Everything `drawRow` does to the collision. -/
theorem collide_drawRow (c : Canvas) (x0 y : Nat) (row : Byte) :
    (drawRow c x0 y row).collide = true ↔
      c.collide = true ∨ ∃ x', rowBit row x0 x' = true ∧ pixel c.fb x' y = true := by
  rw [drawRow, (drawRow_prefix c x0 y row 8 le_rfl).2]
  refine or_congr_right ⟨fun ⟨x', _, h⟩ => ⟨x', h⟩, fun ⟨x', h⟩ => ⟨x', ?_, h⟩⟩
  have := h.1
  simp [rowBit] at this
  omega

theorem spriteBit_cons (row : Byte) (rows : List Byte) (x0 y0 x y : Nat) :
    spriteBit (row :: rows) x0 y0 x y = ((decide (y = y0) && rowBit row x0 x) || spriteBit rows x0 (y0 + 1) x y) := by
  unfold spriteBit rowBit
  rcases Nat.lt_trichotomy y y0 with h | rfl | h
  · simp [show ¬ y0 ≤ y by omega, show ¬ y0 + 1 ≤ y by omega, show y ≠ y0 by omega]
  · simp
  · have : y - y0 = (y - (y0 + 1)) + 1 := by omega
    simp [this, show y0 ≤ y by omega, show y0 + 1 ≤ y by omega, show y ≠ y0 by omega]

theorem spriteBit_above (rows : List Byte) {x0 y0 x y : Nat} (h : y < y0) : spriteBit rows x0 y0 x y = false := by
  simp [spriteBit, show ¬ y0 ≤ y by omega]

/-- Everything `drawRows` does to the screen: the sprite is XORed onto it. -/
theorem pixel_drawRows (x0 : Nat) {x' y' : Nat} (hx : x' < 64) (hy : y' < 32) : ∀ (rows : List Byte) (c : Canvas) (y : Nat),
    pixel (drawRows c x0 y rows).fb x' y' = (pixel c.fb x' y' ^^ spriteBit rows x0 y x' y')
  | [], c, y => by simp [drawRows, spriteBit]
  | row :: rows, c, y => by
    rw [drawRows, pixel_drawRows x0 hx hy rows, pixel_drawRow _ _ _ _ hx hy, spriteBit_cons]
    by_cases h : y' = y
    · subst h; simp [spriteBit_above rows (show y' < y' + 1 by omega)]
    · simp [h]

/-- Everything `drawRows` does to the collision: raised exactly if some drawn bit meets a lit pixel. -/
theorem collide_drawRows (x0 : Nat) : ∀ (rows : List Byte) (c : Canvas) (y : Nat),
    (drawRows c x0 y rows).collide = true ↔
      c.collide = true ∨ ∃ x' y', spriteBit rows x0 y x' y' = true ∧ pixel c.fb x' y' = true
  | [], c, y => by simp [drawRows, spriteBit]
  | row :: rows, c, y => by
    rw [drawRows, collide_drawRows x0 rows, collide_drawRow, or_assoc]
    refine or_congr_right ?_
    have later : ∀ x' y', spriteBit rows x0 (y + 1) x' y' = true →
        pixel (drawRow c x0 y row).fb x' y' = pixel c.fb x' y' := by
      intro x' y' h
      by_cases hin : x' < 64 ∧ y' < 32
      · have : y' ≠ y := by rintro rfl; rw [spriteBit_above rows (by omega)] at h; exact absurd h (by decide)
        rw [pixel_drawRow _ _ _ _ hin.1 hin.2]
        simp [this]
      · rw [pixel_outside hin, pixel_outside hin]
    constructor
    · rintro (⟨x', h1, h2⟩ | ⟨x', y', h1, h2⟩)
      · exact ⟨x', y, by simp [spriteBit_cons, h1], h2⟩
      · exact ⟨x', y', by simp [spriteBit_cons, h1], by rwa [later x' y' h1] at h2⟩
    · rintro ⟨x', y', h1, h2⟩
      rw [spriteBit_cons, Bool.or_eq_true, Bool.and_eq_true, decide_eq_true_eq] at h1
      rcases h1 with ⟨rfl, h1⟩ | h1
      · exact .inl ⟨x', h1, h2⟩
      · exact .inr ⟨x', y', h1, by rwa [later x' y' h1]⟩

theorem spriteBit_take (rows : List Byte) {x0 y0 x y : Nat} (h : y < 32) :
    spriteBit (rows.take (32 - y0)) x0 y0 x y = spriteBit rows x0 y0 x y := by
  unfold spriteBit
  by_cases hy : y0 ≤ y
  · simp [List.getD_eq_getElem?_getD, show y - y0 < 32 - y0 by omega]
  · simp [hy]

/-- Everything a whole draw does to the screen (42_display.md R171, R174, R175). -/
theorem pixel_drawSprite (fb : Screen) (x0 y0 : Nat) (rows : List Byte) {x y : Nat} (hx : x < 64) (hy : y < 32) :
    pixel (drawSprite fb x0 y0 rows).fb x y = (pixel fb x y ^^ spriteBit rows x0 y0 x y) := by
  rw [drawSprite, pixel_drawRows x0 hx hy, spriteBit_take rows hy]

/-- Everything a whole draw does to the collision (42_display.md R175). -/
theorem collide_drawSprite (fb : Screen) (x0 y0 : Nat) (rows : List Byte) :
    (drawSprite fb x0 y0 rows).collide = true ↔
      ∃ x y, x < 64 ∧ y < 32 ∧ spriteBit rows x0 y0 x y = true ∧ pixel fb x y = true := by
  rw [drawSprite, collide_drawRows]
  constructor
  · rintro (h | ⟨x, y, h1, h2⟩)
    · exact absurd h Bool.false_ne_true
    · by_cases hin : x < 64 ∧ y < 32
      · exact ⟨x, y, hin.1, hin.2, by rwa [spriteBit_take rows hin.2] at h1, h2⟩
      · rw [pixel_outside hin] at h2; exact absurd h2 (by decide)
  · rintro ⟨x, y, -, hy, h1, h2⟩
    exact .inr ⟨x, y, by rwa [spriteBit_take rows hy], h2⟩

end Sys2Proof.Machine
end

