-- ==== Sys2Proof/Laws/Memory.lean ====
section
/-! SUPPORT. The laws of memory: a write is read back, leaves every other byte alone and keeps the canonical form. -/

namespace Sys2Proof.Machine.Memory

@[simp] theorem read_nil (a : Nat) : Memory.read [] a = resetByte a := rfl

@[simp] theorem read_cons (k : Nat) (b : Byte) (m : Memory) (a : Nat) :
    Memory.read ((k, b) :: m) a = if k = a then b else Memory.read m a := rfl

theorem wf_nil : Memory.wf [] := ⟨List.Pairwise.nil, fun _ h => absurd h List.not_mem_nil⟩

theorem wf_cons {k : Nat} {b : Byte} {m : Memory} :
    Memory.wf ((k, b) :: m) ↔ (∀ c ∈ m, k < c.1) ∧ k < memorySize ∧ b ≠ resetByte k ∧ Memory.wf m := by
  simp only [Memory.wf, List.pairwise_cons, List.forall_mem_cons]
  tauto

/-- Below every listed address, memory reads as RESET left it. -/
theorem read_eq_reset {m : Memory} {a : Nat} (h : ∀ c ∈ m, a < c.1) : Memory.read m a = resetByte a := by
  induction m with
  | nil => rfl
  | cons c m ih =>
    obtain ⟨k, b⟩ := c
    have hk : a < k := h (k, b) List.mem_cons_self
    rw [read_cons, if_neg (by omega), ih fun c hc => h c (List.mem_cons_of_mem _ hc)]

theorem read_consCell_ne {a a' : Nat} (b : Byte) (m : Memory) (h : a' ≠ a) :
    Memory.read (Memory.consCell a b m) a' = Memory.read m a' := by
  unfold Memory.consCell
  split
  · rfl
  · rw [read_cons, if_neg (Ne.symm h)]

theorem read_consCell_same {a : Nat} (b : Byte) {m : Memory} (h : ∀ c ∈ m, a < c.1) :
    Memory.read (Memory.consCell a b m) a = b := by
  unfold Memory.consCell
  split
  · next hb => rw [read_eq_reset h, hb]
  · rw [read_cons, if_pos rfl]

/-- A write leaves every other address alone. -/
theorem read_write_ne {a a' : Nat} (m : Memory) (b : Byte) (h : a' ≠ a) :
    Memory.read (Memory.write m a b) a' = Memory.read m a' := by
  induction m with
  | nil => exact read_consCell_ne b [] h
  | cons c m ih =>
    obtain ⟨k, c⟩ := c
    simp only [Memory.write]
    split
    · exact read_consCell_ne b _ h
    · split
      · next hk => rw [read_consCell_ne b m h, read_cons, if_neg (by omega)]
      · rw [read_cons, read_cons, ih]

/-- A write is read back. -/
theorem read_write_same {m : Memory} (hm : Memory.wf m) (a : Nat) (b : Byte) :
    Memory.read (Memory.write m a b) a = b := by
  induction m with
  | nil => exact read_consCell_same b (by simp)
  | cons c m ih =>
    obtain ⟨k, c⟩ := c
    obtain ⟨hlt, -, -, hwf⟩ := wf_cons.mp hm
    simp only [Memory.write]
    split
    · next hk =>
      refine read_consCell_same b fun d hd => ?_
      rcases List.mem_cons.mp hd with rfl | hd
      · exact hk
      · exact Nat.lt_trans hk (hlt d hd)
    · split
      · next hk => exact read_consCell_same b fun d hd => hk ▸ hlt d hd
      · next hk => rw [read_cons, if_neg (Ne.symm hk), ih hwf]

theorem wf_consCell {a : Nat} {b : Byte} {m : Memory} (ha : a < memorySize) (hlt : ∀ c ∈ m, a < c.1)
    (hm : Memory.wf m) : Memory.wf (Memory.consCell a b m) := by
  unfold Memory.consCell
  split
  · exact hm
  · next hb => exact wf_cons.mpr ⟨hlt, ha, hb, hm⟩

/-- Every address a write lists is the written one or was listed before. -/
theorem mem_write {m : Memory} {a : Nat} {b : Byte} {c : Host.Cell} (h : c ∈ Memory.write m a b) :
    c.1 = a ∨ c ∈ m := by
  induction m with
  | nil =>
    unfold Memory.write Memory.consCell at h
    split at h <;> simp_all
  | cons d m ih =>
    obtain ⟨k, d⟩ := d
    simp only [Memory.write] at h
    split at h
    · unfold Memory.consCell at h
      split at h
      · exact .inr h
      · rcases List.mem_cons.mp h with rfl | h
        · exact .inl rfl
        · exact .inr h
    · split at h
      · unfold Memory.consCell at h
        split at h
        · exact .inr (List.mem_cons_of_mem _ h)
        · rcases List.mem_cons.mp h with rfl | h
          · exact .inl rfl
          · exact .inr (List.mem_cons_of_mem _ h)
      · rcases List.mem_cons.mp h with rfl | h
        · exact .inr List.mem_cons_self
        · exact (ih h).imp id (List.mem_cons_of_mem _)

/-- A write inside the memory keeps the canonical form. -/
theorem wf_write {m : Memory} (hm : Memory.wf m) {a : Nat} (ha : a < memorySize) (b : Byte) :
    Memory.wf (Memory.write m a b) := by
  induction m with
  | nil => exact wf_consCell ha (by simp) wf_nil
  | cons c m ih =>
    obtain ⟨k, c⟩ := c
    obtain ⟨hlt, hk, hc, hwf⟩ := wf_cons.mp hm
    simp only [Memory.write]
    split
    · next hak =>
      refine wf_consCell ha (fun d hd => ?_) hm
      rcases List.mem_cons.mp hd with rfl | hd
      · exact hak
      · exact Nat.lt_trans hak (hlt d hd)
    · split
      · next hak => exact wf_consCell ha (fun d hd => hak ▸ hlt d hd) hwf
      · next h1 h2 =>
        refine wf_cons.mpr ⟨fun d hd => ?_, hk, hc, ih hwf⟩
        rcases mem_write hd with h | h
        · omega
        · exact hlt d h

/-- Consecutive writes leave every address outside them alone. -/
theorem read_writeBytes_outside {bs : List Byte} : ∀ {m : Memory} {a a' : Nat},
    a' < a ∨ a + bs.length ≤ a' → Memory.read (Memory.writeBytes m a bs) a' = Memory.read m a' := by
  induction bs with
  | nil => intros; rfl
  | cons b bs ih =>
    intro m a a' h
    simp only [List.length_cons] at h
    rw [Memory.writeBytes, ih (by omega), read_write_ne _ _ (by omega)]

/-- Consecutive writes inside the memory keep the canonical form. -/
theorem wf_writeBytes {bs : List Byte} : ∀ {m : Memory} {a : Nat}, Memory.wf m → a + bs.length ≤ memorySize →
    Memory.wf (Memory.writeBytes m a bs) := by
  induction bs with
  | nil => intro m a hm _; exact hm
  | cons b bs ih =>
    intro m a hm h
    simp only [List.length_cons] at h
    exact ih (wf_write hm (by omega) b) (by omega)

/-- Consecutive writes inside the memory are read back, byte by byte. -/
theorem read_writeBytes_inside {bs : List Byte} : ∀ {m : Memory} {a : Nat}, Memory.wf m → a + bs.length ≤ memorySize →
    ∀ j (hj : j < bs.length), Memory.read (Memory.writeBytes m a bs) (a + j) = bs[j] := by
  induction bs with
  | nil => intro m a _ _ j hj; exact absurd hj (by simp)
  | cons b bs ih =>
    intro m a hm h j hj
    simp only [List.length_cons] at h hj
    rw [Memory.writeBytes]
    cases j with
    | zero => rw [read_writeBytes_outside (by omega)]; exact read_write_same hm a b
    | succ j =>
      rw [show a + (j + 1) = a + 1 + j by omega]
      exact ih (wf_write hm (by omega) b) (by omega) j (by omega)

end Sys2Proof.Machine.Memory

namespace Sys2Proof.Machine

/-- The two bytes of a stored word are read back (20_memory.md R55). -/
theorem storeWord_read {m : Memory} (hm : Memory.wf m) {a : Nat} (ha : a < memorySize) (op : Word) :
    Memory.read (storeWord m a op) a = hiByte op ∧ Memory.read (storeWord m a op) (a + 1) = loByte op := by
  unfold storeWord
  refine ⟨?_, Memory.read_write_same (Memory.wf_write hm ha _) _ _⟩
  rw [Memory.read_write_ne _ _ (by omega), Memory.read_write_same hm]

/-- A word stored inside the memory keeps the canonical form. -/
theorem wf_storeWord {m : Memory} (hm : Memory.wf m) {a : Nat} (ha : a + 1 < memorySize) (op : Word) :
    Memory.wf (storeWord m a op) :=
  Memory.wf_write (Memory.wf_write hm (by omega) _) ha _

/-- Everything `memRead` can do: inside the memory the byte, above it nothing. -/
theorem memRead_eq_some {m : Memory} {a : Word} {b : Byte} :
    memRead m a = some b ↔ a.toNat < memorySize ∧ Memory.read m a.toNat = b := by
  unfold memRead
  split <;> simp [*]

theorem memRead_eq_none {m : Memory} {a : Word} : memRead m a = none ↔ memorySize ≤ a.toNat := by
  unfold memRead
  split <;> simp <;> omega

end Sys2Proof.Machine
end

