-- ==== Sys2Proof/Laws/State.lean ====
section
/-! SUPPORT. What each update of a state record does to each field, and to a register read. -/

namespace Sys2Proof.Machine

namespace State

/-! ### setReg -/

@[simp] theorem setReg_v (s : State) (x : Reg) (b : Byte) : (s.setReg x b).v = s.v.set x.val b x.isLt := rfl
@[simp] theorem setReg_pc (s : State) (x : Reg) (b : Byte) : (s.setReg x b).pc = s.pc := rfl
@[simp] theorem setReg_i (s : State) (x : Reg) (b : Byte) : (s.setReg x b).i = s.i := rfl
@[simp] theorem setReg_sp (s : State) (x : Reg) (b : Byte) : (s.setReg x b).sp = s.sp := rfl
@[simp] theorem setReg_stack (s : State) (x : Reg) (b : Byte) : (s.setReg x b).stack = s.stack := rfl
@[simp] theorem setReg_dt (s : State) (x : Reg) (b : Byte) : (s.setReg x b).dt = s.dt := rfl
@[simp] theorem setReg_st (s : State) (x : Reg) (b : Byte) : (s.setReg x b).st = s.st := rfl
@[simp] theorem setReg_fb (s : State) (x : Reg) (b : Byte) : (s.setReg x b).fb = s.fb := rfl
@[simp] theorem setReg_key (s : State) (x : Reg) (b : Byte) : (s.setReg x b).key = s.key := rfl
@[simp] theorem setReg_mem (s : State) (x : Reg) (b : Byte) : (s.setReg x b).mem = s.mem := rfl
@[simp] theorem setReg_fault (s : State) (x : Reg) (b : Byte) : (s.setReg x b).fault = s.fault := rfl
@[simp] theorem setReg_loadable (s : State) (x : Reg) (b : Byte) : (s.setReg x b).loadable = s.loadable := rfl
@[simp] theorem setReg_errorInfo (s : State) (x : Reg) (b : Byte) : (s.setReg x b).errorInfo = s.errorInfo := rfl
@[simp] theorem setReg_draws (s : State) (x : Reg) (b : Byte) : (s.setReg x b).draws = s.draws := rfl

/-! ### setPc -/

@[simp] theorem setPc_v (s : State) (a : Word) : (s.setPc a).v = s.v := rfl
@[simp] theorem setPc_pc (s : State) (a : Word) : (s.setPc a).pc = a := rfl
@[simp] theorem setPc_i (s : State) (a : Word) : (s.setPc a).i = s.i := rfl
@[simp] theorem setPc_sp (s : State) (a : Word) : (s.setPc a).sp = s.sp := rfl
@[simp] theorem setPc_stack (s : State) (a : Word) : (s.setPc a).stack = s.stack := rfl
@[simp] theorem setPc_dt (s : State) (a : Word) : (s.setPc a).dt = s.dt := rfl
@[simp] theorem setPc_st (s : State) (a : Word) : (s.setPc a).st = s.st := rfl
@[simp] theorem setPc_fb (s : State) (a : Word) : (s.setPc a).fb = s.fb := rfl
@[simp] theorem setPc_key (s : State) (a : Word) : (s.setPc a).key = s.key := rfl
@[simp] theorem setPc_mem (s : State) (a : Word) : (s.setPc a).mem = s.mem := rfl
@[simp] theorem setPc_fault (s : State) (a : Word) : (s.setPc a).fault = s.fault := rfl
@[simp] theorem setPc_loadable (s : State) (a : Word) : (s.setPc a).loadable = s.loadable := rfl
@[simp] theorem setPc_errorInfo (s : State) (a : Word) : (s.setPc a).errorInfo = s.errorInfo := rfl
@[simp] theorem setPc_draws (s : State) (a : Word) : (s.setPc a).draws = s.draws := rfl
@[simp] theorem setPc_reg (s : State) (a : Word) (y : Reg) : (s.setPc a).reg y = s.reg y := rfl

/-! ### setI -/

@[simp] theorem setI_v (s : State) (a : Word) : (s.setI a).v = s.v := rfl
@[simp] theorem setI_pc (s : State) (a : Word) : (s.setI a).pc = s.pc := rfl
@[simp] theorem setI_i (s : State) (a : Word) : (s.setI a).i = a := rfl
@[simp] theorem setI_sp (s : State) (a : Word) : (s.setI a).sp = s.sp := rfl
@[simp] theorem setI_stack (s : State) (a : Word) : (s.setI a).stack = s.stack := rfl
@[simp] theorem setI_dt (s : State) (a : Word) : (s.setI a).dt = s.dt := rfl
@[simp] theorem setI_st (s : State) (a : Word) : (s.setI a).st = s.st := rfl
@[simp] theorem setI_fb (s : State) (a : Word) : (s.setI a).fb = s.fb := rfl
@[simp] theorem setI_key (s : State) (a : Word) : (s.setI a).key = s.key := rfl
@[simp] theorem setI_mem (s : State) (a : Word) : (s.setI a).mem = s.mem := rfl
@[simp] theorem setI_fault (s : State) (a : Word) : (s.setI a).fault = s.fault := rfl
@[simp] theorem setI_loadable (s : State) (a : Word) : (s.setI a).loadable = s.loadable := rfl
@[simp] theorem setI_errorInfo (s : State) (a : Word) : (s.setI a).errorInfo = s.errorInfo := rfl
@[simp] theorem setI_draws (s : State) (a : Word) : (s.setI a).draws = s.draws := rfl
@[simp] theorem setI_reg (s : State) (a : Word) (y : Reg) : (s.setI a).reg y = s.reg y := rfl

/-! ### setFb -/

@[simp] theorem setFb_v (s : State) (fb : Screen) : (s.setFb fb).v = s.v := rfl
@[simp] theorem setFb_pc (s : State) (fb : Screen) : (s.setFb fb).pc = s.pc := rfl
@[simp] theorem setFb_i (s : State) (fb : Screen) : (s.setFb fb).i = s.i := rfl
@[simp] theorem setFb_sp (s : State) (fb : Screen) : (s.setFb fb).sp = s.sp := rfl
@[simp] theorem setFb_stack (s : State) (fb : Screen) : (s.setFb fb).stack = s.stack := rfl
@[simp] theorem setFb_dt (s : State) (fb : Screen) : (s.setFb fb).dt = s.dt := rfl
@[simp] theorem setFb_st (s : State) (fb : Screen) : (s.setFb fb).st = s.st := rfl
@[simp] theorem setFb_fb (s : State) (fb : Screen) : (s.setFb fb).fb = fb := rfl
@[simp] theorem setFb_key (s : State) (fb : Screen) : (s.setFb fb).key = s.key := rfl
@[simp] theorem setFb_mem (s : State) (fb : Screen) : (s.setFb fb).mem = s.mem := rfl
@[simp] theorem setFb_fault (s : State) (fb : Screen) : (s.setFb fb).fault = s.fault := rfl
@[simp] theorem setFb_loadable (s : State) (fb : Screen) : (s.setFb fb).loadable = s.loadable := rfl
@[simp] theorem setFb_errorInfo (s : State) (fb : Screen) : (s.setFb fb).errorInfo = s.errorInfo := rfl
@[simp] theorem setFb_draws (s : State) (fb : Screen) : (s.setFb fb).draws = s.draws := rfl
@[simp] theorem setFb_reg (s : State) (fb : Screen) (y : Reg) : (s.setFb fb).reg y = s.reg y := rfl

/-! ### push -/

@[simp] theorem push_v (s : State) (a : Word) : (s.push a).v = s.v := rfl
@[simp] theorem push_pc (s : State) (a : Word) : (s.push a).pc = s.pc := rfl
@[simp] theorem push_i (s : State) (a : Word) : (s.push a).i = s.i := rfl
@[simp] theorem push_sp (s : State) (a : Word) : (s.push a).sp = s.sp + 1 := rfl
@[simp] theorem push_stack (s : State) (a : Word) : (s.push a).stack = s.stack.setIfInBounds s.sp a := rfl
@[simp] theorem push_dt (s : State) (a : Word) : (s.push a).dt = s.dt := rfl
@[simp] theorem push_st (s : State) (a : Word) : (s.push a).st = s.st := rfl
@[simp] theorem push_fb (s : State) (a : Word) : (s.push a).fb = s.fb := rfl
@[simp] theorem push_key (s : State) (a : Word) : (s.push a).key = s.key := rfl
@[simp] theorem push_mem (s : State) (a : Word) : (s.push a).mem = s.mem := rfl
@[simp] theorem push_fault (s : State) (a : Word) : (s.push a).fault = s.fault := rfl
@[simp] theorem push_loadable (s : State) (a : Word) : (s.push a).loadable = s.loadable := rfl
@[simp] theorem push_errorInfo (s : State) (a : Word) : (s.push a).errorInfo = s.errorInfo := rfl
@[simp] theorem push_draws (s : State) (a : Word) : (s.push a).draws = s.draws := rfl
@[simp] theorem push_reg (s : State) (a : Word) (y : Reg) : (s.push a).reg y = s.reg y := rfl

/-! ### popPc -/

@[simp] theorem popPc_v (s : State) : (s.popPc).v = s.v := rfl
@[simp] theorem popPc_pc (s : State) : (s.popPc).pc = s.top := rfl
@[simp] theorem popPc_i (s : State) : (s.popPc).i = s.i := rfl
@[simp] theorem popPc_sp (s : State) : (s.popPc).sp = s.sp - 1 := rfl
@[simp] theorem popPc_stack (s : State) : (s.popPc).stack = s.stack := rfl
@[simp] theorem popPc_dt (s : State) : (s.popPc).dt = s.dt := rfl
@[simp] theorem popPc_st (s : State) : (s.popPc).st = s.st := rfl
@[simp] theorem popPc_fb (s : State) : (s.popPc).fb = s.fb := rfl
@[simp] theorem popPc_key (s : State) : (s.popPc).key = s.key := rfl
@[simp] theorem popPc_mem (s : State) : (s.popPc).mem = s.mem := rfl
@[simp] theorem popPc_fault (s : State) : (s.popPc).fault = s.fault := rfl
@[simp] theorem popPc_loadable (s : State) : (s.popPc).loadable = s.loadable := rfl
@[simp] theorem popPc_errorInfo (s : State) : (s.popPc).errorInfo = s.errorInfo := rfl
@[simp] theorem popPc_draws (s : State) : (s.popPc).draws = s.draws := rfl
@[simp] theorem popPc_reg (s : State) (y : Reg) : (s.popPc).reg y = s.reg y := rfl

/-! ### countDraw -/

@[simp] theorem countDraw_v (s : State) : (s.countDraw).v = s.v := rfl
@[simp] theorem countDraw_pc (s : State) : (s.countDraw).pc = s.pc := rfl
@[simp] theorem countDraw_i (s : State) : (s.countDraw).i = s.i := rfl
@[simp] theorem countDraw_sp (s : State) : (s.countDraw).sp = s.sp := rfl
@[simp] theorem countDraw_stack (s : State) : (s.countDraw).stack = s.stack := rfl
@[simp] theorem countDraw_dt (s : State) : (s.countDraw).dt = s.dt := rfl
@[simp] theorem countDraw_st (s : State) : (s.countDraw).st = s.st := rfl
@[simp] theorem countDraw_fb (s : State) : (s.countDraw).fb = s.fb := rfl
@[simp] theorem countDraw_key (s : State) : (s.countDraw).key = s.key := rfl
@[simp] theorem countDraw_mem (s : State) : (s.countDraw).mem = s.mem := rfl
@[simp] theorem countDraw_fault (s : State) : (s.countDraw).fault = s.fault := rfl
@[simp] theorem countDraw_loadable (s : State) : (s.countDraw).loadable = s.loadable := rfl
@[simp] theorem countDraw_errorInfo (s : State) : (s.countDraw).errorInfo = s.errorInfo := rfl
@[simp] theorem countDraw_draws (s : State) : (s.countDraw).draws = s.draws + 1 := rfl
@[simp] theorem countDraw_reg (s : State) (y : Reg) : (s.countDraw).reg y = s.reg y := rfl

/-! ### closeLoad -/

@[simp] theorem closeLoad_v (s : State) : (s.closeLoad).v = s.v := rfl
@[simp] theorem closeLoad_pc (s : State) : (s.closeLoad).pc = s.pc := rfl
@[simp] theorem closeLoad_i (s : State) : (s.closeLoad).i = s.i := rfl
@[simp] theorem closeLoad_sp (s : State) : (s.closeLoad).sp = s.sp := rfl
@[simp] theorem closeLoad_stack (s : State) : (s.closeLoad).stack = s.stack := rfl
@[simp] theorem closeLoad_dt (s : State) : (s.closeLoad).dt = s.dt := rfl
@[simp] theorem closeLoad_st (s : State) : (s.closeLoad).st = s.st := rfl
@[simp] theorem closeLoad_fb (s : State) : (s.closeLoad).fb = s.fb := rfl
@[simp] theorem closeLoad_key (s : State) : (s.closeLoad).key = s.key := rfl
@[simp] theorem closeLoad_mem (s : State) : (s.closeLoad).mem = s.mem := rfl
@[simp] theorem closeLoad_fault (s : State) : (s.closeLoad).fault = s.fault := rfl
@[simp] theorem closeLoad_loadable (s : State) : (s.closeLoad).loadable = false := rfl
@[simp] theorem closeLoad_errorInfo (s : State) : (s.closeLoad).errorInfo = s.errorInfo := rfl
@[simp] theorem closeLoad_draws (s : State) : (s.closeLoad).draws = s.draws := rfl
@[simp] theorem closeLoad_reg (s : State) (y : Reg) : (s.closeLoad).reg y = s.reg y := rfl

/-! ### Reading a register after a write -/

theorem setReg_reg (s : State) (x y : Reg) (b : Byte) :
    (s.setReg x b).reg y = if y = x then b else s.reg y := by
  simp only [reg, setReg_v, Fin.getElem_fin, Vector.getElem_set, Fin.ext_iff, eq_comm]

@[simp] theorem setReg_reg_same (s : State) (x : Reg) (b : Byte) : (s.setReg x b).reg x = b := by
  simp [setReg_reg]

theorem setReg_reg_ne (s : State) {x y : Reg} (b : Byte) (h : y ≠ x) : (s.setReg x b).reg y = s.reg y := by
  simp [setReg_reg, h]

/-- VF is written last: after a write with a flag it holds the flag, whatever x is. -/
@[simp] theorem setRegFlag_reg_vf (s : State) (x : Reg) (r f : Byte) : (s.setRegFlag x r f).reg vf = f := by
  simp [setRegFlag]

theorem setRegFlag_reg_dest (s : State) {x : Reg} (r f : Byte) (h : x ≠ vf) : (s.setRegFlag x r f).reg x = r := by
  simp [setRegFlag, setReg_reg_ne _ _ h]

theorem setRegFlag_reg_other (s : State) {x y : Reg} (r f : Byte) (hx : y ≠ x) (hf : y ≠ vf) :
    (s.setRegFlag x r f).reg y = s.reg y := by
  simp [setRegFlag, setReg_reg_ne _ _ hx, setReg_reg_ne _ _ hf]

/-! ### Updates that are compositions of the ones above -/

@[simp] theorem skip_eq (s : State) : s.skip = s.setPc (s.pc + 2) := rfl
@[simp] theorem advancePc_eq (s : State) : s.advancePc = s.setPc (s.pc + 2) := rfl

/-- Everything `skipIf` can do: PC is PC + 2 or PC, nothing else changes. -/
theorem skipIf_eq (s : State) (c : Bool) : s.skipIf c = s.setPc (if c then s.pc + 2 else s.pc) := by
  cases c <;> rfl

theorem setRegFlag_eq (s : State) (x : Reg) (r f : Byte) : s.setRegFlag x r f = (s.setReg x r).setReg vf f := rfl

theorem withDrawn_eq (s : State) (c : Canvas) :
    s.withDrawn c = (s.setFb c.fb).setReg vf (collisionFlag c.collide) := rfl

end State

/-! ### raise -/

@[simp] theorem raise_v (e : ErrorInfo) (s : State) : (raise e s).v = s.v := rfl
@[simp] theorem raise_pc (e : ErrorInfo) (s : State) : (raise e s).pc = s.pc := rfl
@[simp] theorem raise_i (e : ErrorInfo) (s : State) : (raise e s).i = s.i := rfl
@[simp] theorem raise_sp (e : ErrorInfo) (s : State) : (raise e s).sp = s.sp := rfl
@[simp] theorem raise_stack (e : ErrorInfo) (s : State) : (raise e s).stack = s.stack := rfl
@[simp] theorem raise_dt (e : ErrorInfo) (s : State) : (raise e s).dt = s.dt := rfl
@[simp] theorem raise_st (e : ErrorInfo) (s : State) : (raise e s).st = s.st := rfl
@[simp] theorem raise_fb (e : ErrorInfo) (s : State) : (raise e s).fb = s.fb := rfl
@[simp] theorem raise_key (e : ErrorInfo) (s : State) : (raise e s).key = s.key := rfl
@[simp] theorem raise_mem (e : ErrorInfo) (s : State) : (raise e s).mem = s.mem := rfl
@[simp] theorem raise_fault (e : ErrorInfo) (s : State) : (raise e s).fault = e.code := rfl
@[simp] theorem raise_loadable (e : ErrorInfo) (s : State) : (raise e s).loadable = s.loadable := rfl
@[simp] theorem raise_errorInfo (e : ErrorInfo) (s : State) : (raise e s).errorInfo = some e := rfl
@[simp] theorem raise_draws (e : ErrorInfo) (s : State) : (raise e s).draws = s.draws := rfl
@[simp] theorem raise_reg (e : ErrorInfo) (s : State) (y : Reg) : (raise e s).reg y = s.reg y := rfl

end Sys2Proof.Machine
end

