-- ==== Sys2Proof/Laws/Ops.lean ====
section
/-! SUPPORT. One lemma per shared operation: fetch, the sprite read, the stack. -/

namespace Sys2Proof.Machine

theorem toNat_add_one {a : Word} (h : a.toNat < 0xFFFF) : (a + 1).toNat = a.toNat + 1 := by
  rw [BitVec.toNat_add, show (1 : Word).toNat = 1 from rfl]
  omega

/-- Everything `fetch` can do: it gives the big-endian word at PC, or the fault of the first byte above 0xFFF
(spec 30_encoding.md R71). -/
theorem fetch_cases (s : State) :
    (s.pc.toNat ≤ 0xFFE ∧ fetch s =
      .ok (wordOfBytes (Memory.read s.mem s.pc.toNat) (Memory.read s.mem (s.pc.toNat + 1)))) ∨
    (s.pc.toNat = 0xFFF ∧ fetch s = .error (.fetchAddressFault s.pc (s.pc + 1))) ∨
    (0xFFF < s.pc.toNat ∧ fetch s = .error (.fetchAddressFault s.pc s.pc)) := by
  have inside : ∀ {a : Word}, a.toNat < 0x1000 → memRead s.mem a = some (Memory.read s.mem a.toNat) :=
    fun h => memRead_eq_some.mpr ⟨h, rfl⟩
  have outside : ∀ {a : Word}, 0x1000 ≤ a.toNat → memRead s.mem a = none := fun h => memRead_eq_none.mpr h
  unfold fetch
  rcases Nat.lt_or_ge s.pc.toNat 0xFFF with h | h
  · refine .inl ⟨by omega, ?_⟩
    rw [inside (by omega)]
    simp only [inside (a := s.pc + 1) (by rw [toNat_add_one (by omega)]; omega), toNat_add_one (a := s.pc) (by omega)]
  · rcases Nat.eq_or_lt_of_le h with h | h
    · refine .inr (.inl ⟨h.symm, ?_⟩)
      rw [inside (by omega)]
      simp only [outside (a := s.pc + 1) (by rw [toNat_add_one (by omega)]; omega)]
    · refine .inr (.inr ⟨h, ?_⟩)
      rw [outside (by omega)]

/-- The fetch reads only PC and memory. -/
theorem fetch_congr {s t : State} (hpc : t.pc = s.pc) (hm : t.mem = s.mem) : fetch t = fetch s := by
  unfold fetch
  rw [hpc, hm]

/-- Everything the sprite read does when all rows lie in memory: the bytes upwards from the address. -/
theorem readSprite_ok (m : Memory) : ∀ (n : Nat) (a : Word), a.toNat + n ≤ 0x1000 →
    readSprite m a n = .ok ((List.range n).map fun r => Memory.read m (a.toNat + r))
  | 0, _, _ => rfl
  | n + 1, a, h => by
    have hmem : memRead m a = some (Memory.read m a.toNat) := memRead_eq_some.mpr ⟨by unfold memorySize; omega, rfl⟩
    have hgo : n ≠ 0 → readSprite m (a + 1) n = .ok ((List.range n).map fun r => Memory.read m (a.toNat + (r + 1))) := by
      intro hn
      have hadd : (a + 1).toNat = a.toNat + 1 := toNat_add_one (by omega)
      rw [readSprite_ok m n (a + 1) (by omega), hadd]
      simp only [Nat.add_assoc, Nat.add_comm 1]
    rw [readSprite, hmem]
    rcases Nat.eq_zero_or_pos n with rfl | hn
    · simp [readSprite]
    · simp only [hgo (by omega), List.range_succ_eq_map, List.map_cons, List.map_map, Nat.add_zero]
      rfl

/-- Everything the sprite read does when a row lies above 0xFFF: the fault of the lowest such row. -/
theorem readSprite_error (m : Memory) : ∀ (n : Nat) (a : Word), a.toNat ≤ 0x1000 → 0x1000 < a.toNat + n →
    readSprite m a n = .error 0x1000
  | 0, _, _, h => absurd h (by omega)
  | n + 1, a, ha, h => by
    rcases Nat.eq_or_lt_of_le ha with ha | ha
    · have hmem : memRead m a = none := memRead_eq_none.mpr (by unfold memorySize; omega)
      have : a = 0x1000#16 := BitVec.eq_of_toNat_eq (by simpa using ha)
      rw [readSprite, hmem, this]
      rfl
    · have hmem : memRead m a = some (Memory.read m a.toNat) := memRead_eq_some.mpr ⟨by unfold memorySize; omega, rfl⟩
      have hadd : (a + 1).toNat = a.toNat + 1 := toNat_add_one (by omega)
      rw [readSprite, hmem]
      simp only [readSprite_error m n (a + 1) (by omega) (by omega)]

/-- The sprite read from an address that itself lies above 0xFFF. -/
theorem readSprite_error_first (m : Memory) {n : Nat} {a : Word} (hn : 0 < n) (ha : 0xFFF < a.toNat) :
    readSprite m a n = .error a := by
  obtain ⟨k, rfl⟩ : ∃ k, n = k + 1 := ⟨n - 1, by omega⟩
  have hmem : memRead m a = none := memRead_eq_none.mpr (by unfold memorySize; omega)
  rw [readSprite, hmem]

/-- The entry a push puts on top, while the stack is not full. -/
theorem push_top (s : State) (a : Word) (h : s.sp < 16) : (s.push a).top = a := by
  simp only [State.top, State.push_stack, State.push_sp, Nat.add_sub_cancel]
  simp [Vector.getD, h]

/-- A push leaves every entry below the new top alone. -/
theorem push_stack_below (s : State) (a : Word) (k : Fin 16) (h : k.val ≠ s.sp) :
    (s.push a).stack[k] = s.stack[k] := by
  simp only [State.push_stack, Fin.getElem_fin]
  exact Vector.getElem_setIfInBounds_ne _ (Ne.symm h)

/-- The top of a stack that holds between 1 and 16 entries. -/
theorem top_eq (s : State) (h : s.sp - 1 < 16) : s.top = s.stack[s.sp - 1] := by
  simp [State.top, Vector.getD, h]

end Sys2Proof.Machine
end

