-- ==== Sys2Proof/Laws/Step.lean ====
section
/-! SUPPORT. Everything one STEP can do (spec 30_encoding.md R76). -/

namespace Sys2Proof.Machine

/-- The word at PC. -/
def State.wordAtPc (s : State) : Word :=
  wordOfBytes (Memory.read s.mem s.pc.toNat) (Memory.read s.mem (s.pc.toNat + 1))

/-- The cases of a STEP cycle: a latched error, a fetch error, a word that is no instruction, or an instruction. -/
theorem stepCycle_cases (execute : Instr → State → Host.Outcome State Fault Refusal) (s : State) :
    (s.fault ≠ 0 ∧ stepCycle execute s = .next s) ∨
    (s.fault = 0 ∧ 0xFFF < s.pc.toNat ∧
      stepCycle execute s = .next (raise (.fetchAddressFault s.pc s.pc) s.closeLoad)) ∨
    (s.fault = 0 ∧ s.pc.toNat = 0xFFF ∧
      stepCycle execute s = .next (raise (.fetchAddressFault s.pc (s.pc + 1)) s.closeLoad)) ∨
    (s.fault = 0 ∧ s.pc.toNat ≤ 0xFFE ∧ decode s.wordAtPc = .vacantMemory ∧
      stepCycle execute s = .next (raiseVacant s.wordAtPc s.closeLoad.advancePc)) ∨
    (s.fault = 0 ∧ s.pc.toNat ≤ 0xFFE ∧ decode s.wordAtPc = .unknownInstruction ∧
      stepCycle execute s = .next (raiseUnknown s.wordAtPc s.closeLoad.advancePc)) ∨
    (s.fault = 0 ∧ s.pc.toNat ≤ 0xFFE ∧ ∃ i, decode s.wordAtPc = .instr i ∧
      stepCycle execute s = execute i s.closeLoad.advancePc) := by
  by_cases hf : s.fault = 0
  · unfold stepCycle
    rw [if_neg (by simpa using hf), fetch_congr (State.closeLoad_pc s) (State.closeLoad_mem s)]
    rcases fetch_cases s with ⟨h, hfe⟩ | ⟨h, hfe⟩ | ⟨h, hfe⟩
    · rw [hfe]
      cases hd : decode s.wordAtPc with
      | vacantMemory =>
        refine .inr (.inr (.inr (.inl ⟨hf, h, rfl, ?_⟩)))
        simp only [State.wordAtPc] at hd ⊢
        simp only [hd]
      | unknownInstruction =>
        refine .inr (.inr (.inr (.inr (.inl ⟨hf, h, rfl, ?_⟩))))
        simp only [State.wordAtPc] at hd ⊢
        simp only [hd]
      | instr i =>
        refine .inr (.inr (.inr (.inr (.inr ⟨hf, h, i, rfl, ?_⟩))))
        simp only [State.wordAtPc] at hd
        simp only [hd]
    · exact .inr (.inr (.inl ⟨hf, h, by rw [hfe]⟩))
    · exact .inr (.inl ⟨hf, h, by rw [hfe]⟩)
  · refine .inl ⟨hf, ?_⟩
    unfold stepCycle
    rw [if_pos hf]

/-- The cases of a STEP on this hardware. -/
theorem step_cases (s : State) :
    (s.fault ≠ 0 ∧ step s = .next s) ∨
    (s.fault = 0 ∧ 0xFFF < s.pc.toNat ∧ step s = .next (raise (.fetchAddressFault s.pc s.pc) s.closeLoad)) ∨
    (s.fault = 0 ∧ s.pc.toNat = 0xFFF ∧ step s = .next (raise (.fetchAddressFault s.pc (s.pc + 1)) s.closeLoad)) ∨
    (s.fault = 0 ∧ s.pc.toNat ≤ 0xFFE ∧ decode s.wordAtPc = .vacantMemory ∧
      step s = .next (raiseVacant s.wordAtPc s.closeLoad.advancePc)) ∨
    (s.fault = 0 ∧ s.pc.toNat ≤ 0xFFE ∧ decode s.wordAtPc = .unknownInstruction ∧
      step s = .next (raiseUnknown s.wordAtPc s.closeLoad.advancePc)) ∨
    (s.fault = 0 ∧ s.pc.toNat ≤ 0xFFE ∧ ∃ i, decode s.wordAtPc = .instr i ∧
      step s = exec i s.closeLoad.advancePc) := stepCycle_cases exec s

/-- `PC − 2` after the fetch is the instruction's own address. -/
@[simp] theorem instrAddr_advancePc (s : State) : s.advancePc.instrAddr = s.pc := by
  simp only [State.instrAddr, State.advancePc_eq, State.setPc_pc, BitVec.add_sub_cancel]

end Sys2Proof.Machine
end

