-- ==== Sys2Proof/Laws/Instructions.lean ====
section
/-! SUPPORT. The answers of the meanings that branch, one lemma per branch. -/

namespace Sys2Proof.Machine

/-- zext_16 keeps the value of NNN (spec 30_encoding.md R74). -/
@[simp] theorem addrOperand_toNat (nnn : BitVec 12) : (addrOperand nnn).toNat = nnn.toNat := by
  have := nnn.isLt
  simp only [addrOperand, BitVec.truncate_eq_setWidth, BitVec.toNat_setWidth]
  omega

theorem execCall_push {s : State} (nnn : BitVec 12) (h : s.sp < 16) :
    execCall nnn s = .next ((s.push s.pc).setPc (addrOperand nnn)) := by
  rw [execCall, if_neg (by omega)]

theorem execCall_overflow {s : State} (nnn : BitVec 12) (h : 16 ≤ s.sp) :
    execCall nnn s = .next (raise (.stackOverflow s.instrAddr (encode (.call nnn))) s) := by
  rw [execCall, if_pos h]

/-- Both shifts shift V[X], whatever Y is (spec 40_alu.md R112, R113). -/
@[simp] theorem shrUnder_eq (q : QuirkVariant) (x y : Reg) (s : State) :
    shrUnder q x y s = s.setRegFlag x (s.reg x >>> 1) (shiftRightFlag (s.reg x)) := by cases q; rfl

@[simp] theorem shlUnder_eq (q : QuirkVariant) (x y : Reg) (s : State) :
    shlUnder q x y s = s.setRegFlag x (s.reg x <<< 1) (shiftLeftFlag (s.reg x)) := by cases q; rfl

/-- BNNN adds V0 (spec 41_control_flow.md R150). -/
@[simp] theorem jpV0Under_eq (q : QuirkVariant) (nnn : BitVec 12) (s : State) :
    jpV0Under q nnn s = s.setPc (addrOperand nnn + zext16 (s.reg 0)) := by cases q; rfl

theorem retUnder_pop {s : State} (p : EmptyRetPolicy) (h : 0 < s.sp) : retUnder p s = s.popPc := if_pos h

theorem retUnder_fallbackZero {s : State} (h : s.sp = 0) : retUnder .fallbackZero s = s.setPc 0 := if_neg (by omega)

theorem retUnder_fault {s : State} (h : s.sp = 0) :
    retUnder .fault s = raise (.stackUnderflow s.instrAddr (encode .ret)) s := if_neg (by omega)

/-- DXYN whose rows all lie in memory (spec 42_display.md R171). -/
theorem execDrw_inside {s : State} (x y : Reg) {n : Nat} (h : ∀ r, r < n → s.i.toNat + r ≤ 0xFFF) :
    execDrw x y n s = .next (s.withDrawn (drawSprite s.fb (startColumn s x) (startRow s y) (spriteRows s n))) := by
  have hr : readSprite s.mem s.i n = .ok (spriteRows s n) := by
    cases n with
    | zero => rfl
    | succ n => exact readSprite_ok s.mem (n + 1) s.i (by have := h n (by omega); omega)
  rw [execDrw, hr]

/-- DXYN with a row above 0xFFF (spec 42_display.md R172). -/
theorem execDrw_outside {s : State} (x y : Reg) {n : Nat} {bad : Word} (h : readSprite s.mem s.i n = .error bad) :
    execDrw x y n s = .next (raise (.drawAddressFault s.instrAddr (encode (.drw x y n)) bad) s) := by
  rw [execDrw, h]

/-- The key of a valid index (spec 41_control_flow.md R151). -/
theorem keyFlag_valid (s : State) {k : Byte} (h : k.toNat < 16) : keyFlag s k = some (s.key[k.toNat]) := dif_pos h

/-- No key for an index above 15 (spec 41_control_flow.md R151). -/
theorem keyFlag_invalid (s : State) {k : Byte} (h : 15 < k.toNat) : keyFlag s k = none := dif_neg (by omega)

/-- The next step runs the word that `withFetchWord` stored. -/
theorem step_withFetchWord {s : State} (hm : Memory.wf s.mem) {op : Word} {i : Instr} (hd : decode op = .instr i) :
    step (s.withFetchWord 16 op.toNat) = exec i (s.withFetchWord 16 op.toNat).closeLoad.advancePc := by
  have hpc : s.readyToFetch.pc.toNat < 0xFFF := by
    simp only [State.readyToFetch]
    split
    · assumption
    · decide
  have hop : BitVec.ofNat 16 (op.toNat % 2 ^ 16) = op := by
    rw [Nat.mod_eq_of_lt op.isLt, BitVec.ofNat_toNat, BitVec.setWidth_eq]
  have hw : (s.withFetchWord 16 op.toNat).wordAtPc = op := by
    obtain ⟨h1, h2⟩ := storeWord_read hm (a := s.readyToFetch.pc.toNat) (by unfold memorySize; omega) op
    simp only [State.wordAtPc, State.withFetchWord, hop, h1, h2, wordOfBytes_hiByte_loByte]
  have hpc' : (s.withFetchWord 16 op.toNat).pc = s.readyToFetch.pc := rfl
  rcases step_cases (s.withFetchWord 16 op.toNat) with ⟨h, -⟩ | ⟨-, h, -⟩ | ⟨-, h, -⟩ | ⟨-, -, h, -⟩ | ⟨-, -, h, -⟩ |
    ⟨-, -, j, h, e⟩
  · exact absurd rfl h
  · rw [hpc'] at h; omega
  · rw [hpc'] at h; omega
  · rw [hw, hd] at h; cases h
  · rw [hw, hd] at h; cases h
  · rw [hw, hd] at h; cases h; exact e

end Sys2Proof.Machine
end

