-- ==== Sys2Proof/Laws/Parameters.lean ====
section
/-! SUPPORT. The parameters of spec 00_scope.md R11: this hardware is the machine of `Config.params`, and what each
parameter can change. -/

namespace Sys2Proof.Machine

/-- Outside 0x050–0x09F every FONT leaves 0. -/
theorem fontAt_outside (font : List Byte) {a : Nat} (h : a < 0x050 ∨ 0x09F < a) : fontAt font a = 0 :=
  if_neg (by unfold fontBase; omega)

/-- The font's memory keeps the canonical form. -/
theorem wf_fontMemory (font : Vector Byte 80) : Memory.wf (fontMemory font) :=
  Memory.wf_writeBytes Memory.wf_nil (by simp [fontBase, memorySize])

/-- Every byte that RESET leaves for a given FONT (10_state.md R42). -/
theorem read_fontMemory (font : Vector Byte 80) (a : Nat) : Memory.read (fontMemory font) a = fontAt font.toList a := by
  have hl : font.toList.length = 80 := by simp
  unfold fontAt fontMemory
  split
  · next h =>
    obtain ⟨k, rfl⟩ : ∃ k, a = fontBase + k := ⟨a - fontBase, by omega⟩
    rw [Memory.read_writeBytes_inside Memory.wf_nil (by simp [fontBase, memorySize]) k (by omega), Nat.add_sub_cancel_left,
      List.getD_eq_getElem _ _ (by omega)]
  · next h =>
    rw [Memory.read_writeBytes_outside (by omega), Memory.read_nil, resetByte, fontAt, if_neg h]

/-- This hardware's font lists nothing. -/
theorem fontMemory_params : fontMemory Config.params.font = [] := by decide

theorem resetUnder_params : State.resetUnder Config.params = State.reset := by
  rw [State.resetUnder, fontMemory_params]
  rfl

theorem fontAt_params (a : Nat) : fontAt Config.params.font.toList a = resetByte a := rfl

/-- This hardware's execute phase is the one of its parameters. -/
theorem execUnder_params (i : Instr) (s : State) : execUnder Config.params i s = exec i s := by cases i <;> rfl

theorem stepUnder_params (s : State) : stepUnder Config.params s = step s := by
  rw [stepUnder, step, show execUnder Config.params = exec from funext fun i => funext (execUnder_params i)]

/-- An instruction other than 00EE and CXNN has no parameter with more than one value. -/
theorem execUnder_eq_exec (p : Params) {i : Instr} (s : State) (hret : i ≠ .ret) (hrnd : ∀ x nn, i ≠ .rnd x nn) :
    execUnder p i s = exec i s := by
  cases i <;> first | rfl | exact absurd rfl hret | exact absurd rfl (hrnd _ _)

/-- Everything the execute phase can do for given parameters: what it does on this hardware, a StackUnderflow under the
policy FAULT, or a draw of the given RAND. -/
theorem execUnder_cases (p : Params) (i : Instr) (s : State) :
    execUnder p i s = exec i s ∨
    (i = .ret ∧ s.sp = 0 ∧ p.emptyRetPolicy = .fault ∧
      execUnder p i s = .next (raise (.stackUnderflow s.instrAddr (encode .ret)) s)) ∨
    ∃ x nn, i = .rnd x nn ∧ execUnder p i s = .next (rndWith (s.nextDraw p.rand) x nn s) := by
  by_cases hret : i = .ret
  · subst hret
    by_cases h : 0 < s.sp
    · refine .inl ?_
      show Host.Outcome.next (retUnder _ s) = .next (retUnder _ s)
      rw [retUnder_pop _ h, retUnder_pop _ h]
    · cases hp : p.emptyRetPolicy with
      | fallbackZero => exact .inl (by rw [execUnder, hp]; rfl)
      | fault => exact .inr (.inl ⟨rfl, by omega, rfl, by rw [execUnder, hp, retUnder_fault (by omega)]⟩)
  · by_cases hrnd : ∃ x nn, i = .rnd x nn
    · obtain ⟨x, nn, rfl⟩ := hrnd
      exact .inr (.inr ⟨x, nn, rfl, rfl⟩)
    · exact .inl (execUnder_eq_exec p s hret fun x nn h => hrnd ⟨x, nn, h⟩)

/-- The cases of a STEP for given parameters. -/
theorem stepUnder_cases (p : Params) (s : State) :
    (s.fault ≠ 0 ∧ stepUnder p s = .next s) ∨
    (s.fault = 0 ∧ 0xFFF < s.pc.toNat ∧ stepUnder p s = .next (raise (.fetchAddressFault s.pc s.pc) s.closeLoad)) ∨
    (s.fault = 0 ∧ s.pc.toNat = 0xFFF ∧
      stepUnder p s = .next (raise (.fetchAddressFault s.pc (s.pc + 1)) s.closeLoad)) ∨
    (s.fault = 0 ∧ s.pc.toNat ≤ 0xFFE ∧ decode s.wordAtPc = .vacantMemory ∧
      stepUnder p s = .next (raiseVacant s.wordAtPc s.closeLoad.advancePc)) ∨
    (s.fault = 0 ∧ s.pc.toNat ≤ 0xFFE ∧ decode s.wordAtPc = .unknownInstruction ∧
      stepUnder p s = .next (raiseUnknown s.wordAtPc s.closeLoad.advancePc)) ∨
    (s.fault = 0 ∧ s.pc.toNat ≤ 0xFFE ∧ ∃ i, decode s.wordAtPc = .instr i ∧
      stepUnder p s = execUnder p i s.closeLoad.advancePc) := stepCycle_cases (execUnder p) s

/-- A STEP differs from this hardware's only where the instruction it fetches does. -/
theorem stepUnder_eq_or (p : Params) (s : State) :
    stepUnder p s = step s ∨
    ∃ i, s.fault = 0 ∧ s.pc.toNat ≤ 0xFFE ∧ decode s.wordAtPc = .instr i ∧
      stepUnder p s = execUnder p i s.closeLoad.advancePc ∧ step s = exec i s.closeLoad.advancePc := by
  rcases stepUnder_cases p s with ⟨hf, e⟩ | ⟨hf, h, e⟩ | ⟨hf, h, e⟩ | ⟨hf, hp, h, e⟩ | ⟨hf, hp, h, e⟩ | ⟨hf, hp, i, h, e⟩ <;>
  rcases step_cases s with ⟨hf', e'⟩ | ⟨hf', h', e'⟩ | ⟨hf', h', e'⟩ | ⟨hf', hp', h', e'⟩ | ⟨hf', hp', h', e'⟩ |
    ⟨hf', hp', i', h', e'⟩ <;>
  first
    | exact absurd hf' hf
    | exact absurd hf hf'
    | exact .inl (e.trans e'.symm)
    | omega
    | (rw [h] at h'; cases h'; exact .inr ⟨_, hf, hp, h, e, e'⟩)
    | (rw [h] at h'; cases h')

/-! ### The host operations on this hardware, one equation each -/

@[simp] theorem perform_reset (s : State) : perform .reset s = .next ({ State.reset with draws := s.draws }, .none) := by
  show Host.Outcome.next (hostResetUnder Config.params s, HostResult.none) = _
  rw [hostResetUnder, resetUnder_params]
@[simp] theorem perform_load (image : List Byte) (s : State) :
    perform (.load image) s = withResult (fun t => .status t.fault) (hostLoad image s) := rfl
@[simp] theorem perform_step (s : State) : perform .step s = withResult (fun t => .status t.fault) (step s) := by
  rw [← stepUnder_params]; rfl
@[simp] theorem perform_timerTick (d e : Bool) (s : State) :
    perform (.timerTick d e) s = .next (tickUnder .saturate d e s, .none) := rfl
@[simp] theorem perform_key (k : Nat) (b : Bool) (s : State) :
    perform (.key k b) s = withResult (fun _ => .none) (hostKey k b s) := rfl
@[simp] theorem perform_fbRead (s : State) : perform .fbRead s = .next (s, .pixels (fbRead s)) := rfl
@[simp] theorem perform_status (s : State) : perform .status s = .next (s, .status s.fault) := rfl

end Sys2Proof.Machine
end

