-- ==== Sys2Proof/Laws/PerInstr.lean ====
section
/-! SUPPORT. Statements for all instructions, one lemma per constructor. -/

namespace Sys2Proof.Laws.FixedBits

/-- An instruction's word has its row's pattern under its row's mask (spec 30_encoding.md R80). -/
def Statement (i : Instr) : Prop := encode i &&& i.row.2 = i.row.1

theorem cls : Statement (.cls) :=
  show (0x00E0 : Word) &&& 0xFFFF = 0x00E0 by decide

theorem ret : Statement (.ret) :=
  show (0x00EE : Word) &&& 0xFFFF = 0x00EE by decide

theorem jp (nnn : BitVec 12) : Statement (.jp nnn) :=
  (and_F000_iff _ _).mpr (fieldF_wordNNN _ _)

theorem call (nnn : BitVec 12) : Statement (.call nnn) :=
  (and_F000_iff _ _).mpr (fieldF_wordNNN _ _)

theorem seImm (x : Reg) (nn : Byte) : Statement (.seImm x nn) :=
  (and_F000_iff _ _).mpr (fieldF_wordXNN _ _ _)

theorem sneImm (x : Reg) (nn : Byte) : Statement (.sneImm x nn) :=
  (and_F000_iff _ _).mpr (fieldF_wordXNN _ _ _)

theorem seReg (x : Reg) (y : Reg) : Statement (.seReg x y) :=
  (and_F00F_iff _ _ _).mpr ⟨fieldF_wordXYN _ _ _ _, fieldN_wordXYN _ _ _ _⟩

theorem ldImm (x : Reg) (nn : Byte) : Statement (.ldImm x nn) :=
  (and_F000_iff _ _).mpr (fieldF_wordXNN _ _ _)

theorem addImm (x : Reg) (nn : Byte) : Statement (.addImm x nn) :=
  (and_F000_iff _ _).mpr (fieldF_wordXNN _ _ _)

theorem ldReg (x : Reg) (y : Reg) : Statement (.ldReg x y) :=
  (and_F00F_iff _ _ _).mpr ⟨fieldF_wordXYN _ _ _ _, fieldN_wordXYN _ _ _ _⟩

theorem orReg (x : Reg) (y : Reg) : Statement (.orReg x y) :=
  (and_F00F_iff _ _ _).mpr ⟨fieldF_wordXYN _ _ _ _, fieldN_wordXYN _ _ _ _⟩

theorem andReg (x : Reg) (y : Reg) : Statement (.andReg x y) :=
  (and_F00F_iff _ _ _).mpr ⟨fieldF_wordXYN _ _ _ _, fieldN_wordXYN _ _ _ _⟩

theorem xorReg (x : Reg) (y : Reg) : Statement (.xorReg x y) :=
  (and_F00F_iff _ _ _).mpr ⟨fieldF_wordXYN _ _ _ _, fieldN_wordXYN _ _ _ _⟩

theorem addReg (x : Reg) (y : Reg) : Statement (.addReg x y) :=
  (and_F00F_iff _ _ _).mpr ⟨fieldF_wordXYN _ _ _ _, fieldN_wordXYN _ _ _ _⟩

theorem subReg (x : Reg) (y : Reg) : Statement (.subReg x y) :=
  (and_F00F_iff _ _ _).mpr ⟨fieldF_wordXYN _ _ _ _, fieldN_wordXYN _ _ _ _⟩

theorem shrReg (x : Reg) (y : Reg) : Statement (.shrReg x y) :=
  (and_F00F_iff _ _ _).mpr ⟨fieldF_wordXYN _ _ _ _, fieldN_wordXYN _ _ _ _⟩

theorem subnReg (x : Reg) (y : Reg) : Statement (.subnReg x y) :=
  (and_F00F_iff _ _ _).mpr ⟨fieldF_wordXYN _ _ _ _, fieldN_wordXYN _ _ _ _⟩

theorem shlReg (x : Reg) (y : Reg) : Statement (.shlReg x y) :=
  (and_F00F_iff _ _ _).mpr ⟨fieldF_wordXYN _ _ _ _, fieldN_wordXYN _ _ _ _⟩

theorem sneReg (x : Reg) (y : Reg) : Statement (.sneReg x y) :=
  (and_F00F_iff _ _ _).mpr ⟨fieldF_wordXYN _ _ _ _, fieldN_wordXYN _ _ _ _⟩

theorem ldI (nnn : BitVec 12) : Statement (.ldI nnn) :=
  (and_F000_iff _ _).mpr (fieldF_wordNNN _ _)

theorem jpV0 (nnn : BitVec 12) : Statement (.jpV0 nnn) :=
  (and_F000_iff _ _).mpr (fieldF_wordNNN _ _)

theorem rnd (x : Reg) (nn : Byte) : Statement (.rnd x nn) :=
  (and_F000_iff _ _).mpr (fieldF_wordXNN _ _ _)

theorem drw (x : Reg) (y : Reg) (n : Nat) : Statement (.drw x y n) :=
  (and_F000_iff _ _).mpr (fieldF_wordXYN _ _ _ _)

theorem skp (x : Reg) : Statement (.skp x) :=
  (and_F0FF_iff _ _ _).mpr ⟨fieldF_wordXNN _ _ _, fieldNN_wordXNN _ _ _⟩

theorem sknp (x : Reg) : Statement (.sknp x) :=
  (and_F0FF_iff _ _ _).mpr ⟨fieldF_wordXNN _ _ _, fieldNN_wordXNN _ _ _⟩

end Sys2Proof.Laws.FixedBits
end

