-- ==== Sys2Proof/Tests/Slice0.lean ====
section
/-! SUPPORT. The model's own tests. Words and results are those of spec 30_encoding.md R80 and 95_test_vectors.md, named
by their vector where there is one. -/

namespace Sys2Proof.Tests

open Sys2Proof Sys2Proof.Machine

/-! ### Well-formedness: the one check, and a term it refuses -/

theorem test_wellFormed_refuses_sixteen_rows : (Instr.drw 0 1 16).wellFormed = false := by decide
theorem test_wellFormed_accepts_fifteen_rows : (Instr.drw 0 1 15).wellFormed = true := by decide

/-! ### Decoding: each constructor's word, laid out F X Y N from R70 and R80 -/

theorem test_decode_family_0 : decode 0x00E0 = .instr .cls ∧ decode 0x00EE = .instr .ret ∧
    decode 0x0000 = .vacantMemory ∧ decode 0x00E1 = .unknownInstruction ∧ decode 0x01E0 = .unknownInstruction ∧
    decode 0x0123 = .unknownInstruction := by decide
theorem test_decode_jumps : decode 0x1234 = .instr (.jp 0x234) ∧ decode 0x2400 = .instr (.call 0x400) ∧
    decode 0xB302 = .instr (.jpV0 0x302) := by decide
theorem test_decode_skips : decode 0x3105 = .instr (.seImm 1 0x05) ∧ decode 0x4106 = .instr (.sneImm 1 0x06) ∧
    decode 0x5120 = .instr (.seReg 1 2) ∧ decode 0x9120 = .instr (.sneReg 1 2) ∧
    decode 0x5121 = .unknownInstruction ∧ decode 0x9121 = .unknownInstruction := by decide
theorem test_decode_immediates : decode 0x6A42 = .instr (.ldImm 0xA 0x42) ∧ decode 0x7005 = .instr (.addImm 0 0x05) ∧
    decode 0xA050 = .instr (.ldI 0x050) ∧ decode 0xC30F = .instr (.rnd 3 0x0F) := by decide
theorem test_decode_family_8 : decode 0x8130 = .instr (.ldReg 1 3) ∧ decode 0x8121 = .instr (.orReg 1 2) ∧
    decode 0x8122 = .instr (.andReg 1 2) ∧ decode 0x8123 = .instr (.xorReg 1 2) ∧
    decode 0x8014 = .instr (.addReg 0 1) ∧ decode 0x8015 = .instr (.subReg 0 1) ∧
    decode 0x8256 = .instr (.shrReg 2 5) ∧ decode 0x8017 = .instr (.subnReg 0 1) ∧
    decode 0x826E = .instr (.shlReg 2 6) ∧ decode 0x8008 = .unknownInstruction ∧
    decode 0x800F = .unknownInstruction := by decide
theorem test_decode_draw_and_keys : decode 0xD015 = .instr (.drw 0 1 5) ∧ decode 0xE49E = .instr (.skp 4) ∧
    decode 0xE4A1 = .instr (.sknp 4) ∧ decode 0xE09F = .unknownInstruction ∧
    decode 0xF00A = .unknownInstruction := by decide
theorem test_encode_writes_table_words : encode (.drw 0 1 5) = 0xD015 ∧ encode (.skp 4) = 0xE49E ∧
    encode (.shlReg 2 6) = 0x826E ∧ encode (.jpV0 0x302) = 0xB302 ∧ encode (.seImm 1 0x05) = 0x3105 := by decide
theorem test_table_word_decodes : decodeTableWord 16 0x823E = some (.shlReg 2 3) ∧
    decodeTableWord 16 0xF00A = none ∧ decodeTableWord 16 0x0000 = none := by decide

/-! ### One STEP on a small state -/

/-- A state after RESET with some registers set and a word where STEP fetches (95_test_vectors.md section 1). -/
def given (regs : List (Reg × Byte)) (w : Nat) : State :=
  ((regs.foldl (fun s r => s.setReg r.1 r.2) State.reset).withFetchWord 16 w)

/-- What one STEP leaves, read through `f`. -/
def after {α : Type} (f : State → α) (s : State) : Option α :=
  match Machine.step s with
  | .next t => some (f t)
  | .fault _ => none
  | .refused _ => none

/-- V[x], VF, PC and FAULT of a state. -/
def view (x : Reg) (s : State) : Byte × Byte × Word × BitVec 3 := (s.reg x, s.reg vf, s.pc, s.fault)

theorem test_ALU_01_ldImm : after (view 0xA) (given [] 0x6A42) = some (0x42, 0, 0x202, 0) := by decide
theorem test_ALU_04_addImm_wraps_without_flag :
    after (view 0) (given [(0, 0xFF), (vf, 0x55)] 0x7001) = some (0x00, 0x55, 0x202, 0) := by decide
theorem test_ALU_06_ldReg : after (view 1) (given [(3, 0x7F)] 0x8130) = some (0x7F, 0, 0x202, 0) := by decide
theorem test_ALU_09_orReg_keeps_flag :
    after (view 1) (given [(1, 0x01), (2, 0x02), (vf, 0x01)] 0x8121) = some (0x03, 0x01, 0x202, 0) := by decide
theorem test_ALU_10_andReg : after (view 1) (given [(1, 0x3C), (2, 0x0F)] 0x8122) = some (0x0C, 0, 0x202, 0) := by decide
theorem test_ALU_11_xorReg : after (view 1) (given [(1, 0xFF), (2, 0x0F)] 0x8123) = some (0xF0, 0, 0x202, 0) := by decide
theorem test_ALU_14_addReg_carries :
    after (view 0) (given [(0, 0xFF), (1, 0x01)] 0x8014) = some (0x00, 1, 0x202, 0) := by decide
theorem test_ALU_19_addReg_into_flag :
    after (view vf) (given [(vf, 0xFF), (1, 0x01)] 0x8F14) = some (1, 1, 0x202, 0) := by decide
theorem test_ALU_21_subReg_borrows :
    after (view 0) (given [(0, 0x05), (1, 0x07)] 0x8015) = some (0xFE, 0, 0x202, 0) := by decide
theorem test_ALU_23_subReg_equal :
    after (view 0) (given [(0, 0x33), (1, 0x33)] 0x8015) = some (0x00, 1, 0x202, 0) := by decide
theorem test_ALU_28_subnReg_borrows :
    after (view 0) (given [(0, 0x07), (1, 0x05)] 0x8017) = some (0xFE, 0, 0x202, 0) := by decide
theorem test_ALU_30_subnReg_into_flag :
    after (view vf) (given [(vf, 0x20), (1, 0x10)] 0x8F17) = some (0, 0, 0x202, 0) := by decide
theorem test_ALU_35_shrReg_ignores_y :
    after (view 2) (given [(2, 0x04), (3, 0xFF)] 0x8236) = some (0x02, 0, 0x202, 0) := by decide
theorem test_ALU_36_shrReg_into_flag : after (view vf) (given [(vf, 0x03)] 0x8F06) = some (1, 1, 0x202, 0) := by decide
theorem test_ALU_38_shlReg : after (view 2) (given [(2, 0x81)] 0x826E) = some (0x02, 1, 0x202, 0) := by decide
theorem test_ALU_41_shlReg_ignores_y :
    after (view 2) (given [(2, 0x01), (3, 0xFF)] 0x823E) = some (0x02, 0, 0x202, 0) := by decide
theorem test_ALU_45_ldI : after (fun t => (t.i, t.pc)) (given [] 0xAFFF) = some (0x0FFF, 0x202) := by decide
/-- ALU-47 with the draw given, since the model's draw is free. -/
theorem test_ALU_47_rnd_masks_draw : (rndWith 0xB7 3 0x0F State.reset).reg 3 = 0x07 := by decide
theorem test_rnd_steps : after (fun t => (t.pc, t.draws, t.fault)) (given [] 0xC30F) = some (0x202, 1, 0) := by decide

/-- PC, SP, STACK[0] and FAULT of a state. -/
def flow (s : State) : Word × Nat × Word × BitVec 3 := (s.pc, s.sp, s.stack[0], s.fault)

theorem test_CF_01_ret : after flow ((given [] 0x00EE).push 0x0345) = some (0x0345, 0, 0x0345, 0) := by decide
theorem test_CF_02_ret_on_empty_stack : after flow (given [] 0x00EE) = some (0x0000, 0, 0, 0) := by decide
theorem test_CF_04_call : after flow (given [] 0x2400) = some (0x0400, 1, 0x0202, 0) := by decide
theorem test_CF_05_call_on_full_stack : after flow { given [] 0x2400 with sp := 16 } = some (0x0202, 16, 0, 1) := by decide
theorem test_CF_07_jp : after flow (given [] 0x1234) = some (0x0234, 0, 0, 0) := by decide
theorem test_CF_11_jpV0_ignores_x :
    after flow (given [(0, 0x02), (3, 0x50)] 0xB302) = some (0x0304, 0, 0, 0) := by decide
theorem test_CF_13_seImm_skips : after flow (given [(1, 0x05)] 0x3105) = some (0x0204, 0, 0, 0) := by decide
theorem test_CF_14_seImm_stays : after flow (given [(1, 0x05)] 0x3106) = some (0x0202, 0, 0, 0) := by decide
theorem test_CF_16_sneImm_stays : after flow (given [(1, 0x05)] 0x4105) = some (0x0202, 0, 0, 0) := by decide
theorem test_CF_17_sneImm_skips : after flow (given [(1, 0x05)] 0x4106) = some (0x0204, 0, 0, 0) := by decide
theorem test_CF_18_seReg_skips : after flow (given [(1, 0x33), (2, 0x33)] 0x5120) = some (0x0204, 0, 0, 0) := by decide
theorem test_CF_19_seReg_stays : after flow (given [(1, 0x33), (2, 0x34)] 0x5120) = some (0x0202, 0, 0, 0) := by decide
theorem test_CF_22_sneReg_skips : after flow (given [(1, 0x01), (2, 0x02)] 0x9120) = some (0x0204, 0, 0, 0) := by decide
theorem test_CF_23_sneReg_stays : after flow (given [(1, 0x02), (2, 0x02)] 0x9120) = some (0x0202, 0, 0, 0) := by decide

/-- A state with one key pressed. -/
def pressed (k : Fin 16) (s : State) : State := { s with key := s.key.set k.val true k.isLt }

theorem test_CF_26_skp_skips : after flow (pressed 0xA (given [(4, 0x0A)] 0xE49E)) = some (0x0204, 0, 0, 0) := by decide
theorem test_CF_28_skp_out_of_range :
    after flow (pressed 0 (given [(4, 0x10)] 0xE49E)) = some (0x0202, 0, 0, 0) := by decide
theorem test_CF_29_sknp_skips : after flow (given [(4, 0x0A)] 0xE4A1) = some (0x0204, 0, 0, 0) := by decide
theorem test_CF_31_sknp_out_of_range : after flow (given [(4, 0x10)] 0xE4A1) = some (0x0202, 0, 0, 0) := by decide

/-- The first columns of a row. -/
def rowOf (y n : Nat) (fb : Screen) : List Bool := (List.range n).map fun x => pixel fb x y

theorem test_DSP_01_glyph_zero : after (fun t => (rowOf 0 8 t.fb, rowOf 1 8 t.fb, t.reg vf, t.pc))
    { given [] 0xD015 with i := 0x050 } =
    some ([true, true, true, true, false, false, false, false],
      [true, false, false, true, false, false, false, false], 0, 0x202) := by decide
theorem test_DSP_12_draw_over_the_top : after (fun t => (t.fault, t.pc, t.reg vf, t.errorInfo))
    { given [(vf, 0x07)] 0xD013 with i := 0x0FFE } =
    some (5, 0x202, 0x07, some (.drawAddressFault 0x200 0xD013 0x1000)) := by decide
theorem test_DSP_15_cls_keeps_flag : after (fun t => (pixel t.fb 3 0, t.reg vf))
    { given [(vf, 1)] 0x00E0 with fb := (plot ⟨blankScreen, false⟩ 3 0).fb } = some (false, 1) := by decide

/-! ### Errors, latch and host operations -/

theorem test_DEC_01_null_word : after flow State.reset = some (0x0202, 0, 0, 3) := by decide
theorem test_DEC_09_family_F : after flow (given [] 0xF000) = some (0x0202, 0, 0, 4) := by decide
theorem test_DEC_13_fetch_over_the_top : after flow { State.reset with pc := 0x0FFF } = some (0x0FFF, 0, 0, 5) := by decide
theorem test_DEC_12_latch : after flow { given [] 0x6001 with fault := 3 } = some (0x0200, 0, 0, 3) := by decide
theorem test_CF_03_ret_under_fault_policy :
    flow (retUnder .fault { State.reset with pc := 0x0202 }) = (0x0202, 0, 0, 6) := by decide
theorem test_HOST_10_tick_saturates : tickUnder .saturate true true State.reset = State.reset := by decide
theorem test_HOST_12_tick_wraps : let t := tickUnder .wrap true true (tickUnder .wrap true false State.reset)
    (t.dt, t.st) = (0xFE, 0xFF) := by decide
theorem test_S7_load_writes_program_area :
    (loadImage [0x60, 0x0A] State.reset).mem = [(0x200, 0x60), (0x201, 0x0A)] := by decide
theorem test_font_places : Memory.read [] 0x055 = 0x20 ∧ Memory.read [] 0x09F = 0x80 ∧ Memory.read [] 0x0A0 = 0 := by decide

/-! ### Witnesses: for each statement with hypotheses, a state and operands that meet them -/

/-- The state after RESET with `00EE` in the program area; it meets the machine's invariant. -/
def retState : State := { State.reset with mem := [(0x201, 0xEE)] }

/-- The other settings of the two policies, with a font and draws of zeros. -/
def faultAndWrap : Params where
  font := Vector.replicate 80 0
  rand := fun _ => 0
  timerUnderflow := .wrap
  emptyRetPolicy := .fault
  quirkVariant := .rite

/-- The state after RESET with a call at 0x200 of the `00EE` at 0x206 (95_test_vectors.md S5). -/
def callState : State := { State.reset with mem := [(0x200, 0x22), (0x201, 0x06), (0x207, 0xEE)] }

theorem retState_inv : retState.Inv where
  pc_le := by decide
  i_le := by decide
  sp_le := by decide
  live_le := fun k h => absurd h (Nat.not_lt_zero k.val)
  mem_wf := by decide
  low_kept := fun a h => by
    show Memory.read [(0x201, 0xEE)] a = resetByte a
    rw [Memory.read_cons, if_neg (by omega), Memory.read_nil]
  fault_eq := rfl
  fault_closed := fun h => absurd rfl h

theorem witness_DecodeOfEncode : (Instr.drw 15 15 15).wellFormed = true := by decide
theorem witness_EncodeOfDecode : decode 0xDFFF = .instr (.drw 15 15 15) := by decide
theorem witness_OpcodeMap : (⟨"SKNP_Vx", 0xE0A1, 0xF0FF⟩ : OpcodeRow) ∈ opcodeTable := by decide
theorem witness_NullAndUnknownWords : 0xF000 ≤ (0xF000 : Word).toNat := by decide
theorem witness_FetchIsBigEndian : ({ State.reset with pc := 0xFFE } : State).pc.toNat ≤ 0xFFE := by decide
theorem witness_StepRunsDecodedInstruction : retState.fault = 0 ∧ retState.pc.toNat ≤ 0xFFE ∧
    decode (wordOfBytes (Memory.read retState.mem retState.pc.toNat)
      (Memory.read retState.mem (retState.pc.toNat + 1))) = .instr .ret := by decide
theorem witness_ErrorsBeforeExecution_above : 0xFFF < ({ State.reset with pc := 0x1000 } : State).pc.toNat := by decide
theorem witness_ErrorsBeforeExecution_edge : ({ State.reset with pc := 0xFFF } : State).pc.toNat = 0xFFF := by decide
theorem witness_ErrorsBeforeExecution_null : fetch State.reset = .ok 0 ∧ decode 0 = .vacantMemory := by decide
theorem witness_ErrorsBeforeExecution_unknown :
    fetch (given [] 0xF000) = .ok 0xF000 ∧ decode 0xF000 = .unknownInstruction := by decide
theorem witness_LatchedErrorMakesStepInert : ({ State.reset with fault := 3 } : State).fault ≠ 0 ∧ 15 < 16 ∧
    HostOp.status ≠ HostOp.reset := by decide
theorem witness_LatchedErrorMakesStepInert_operation : ∃ t r,
    perform (.timerTick true true) { State.reset with fault := 3 } = .next (t, r) := ⟨_, _, rfl⟩
theorem witness_ErrorsLeaveNoPartialEffect :
    State.reset.fault = 0 ∧ ∃ t, Machine.step State.reset = .next t ∧ t.fault ≠ 0 := ⟨rfl, _, rfl, by decide⟩
theorem witness_ErrorPriority : ∃ t, ({ given [] 0x2400 with sp := 16 } : State).fault = 0 ∧
    ({ given [] 0x2400 with sp := 16 } : State).sp ≤ 16 ∧ Machine.step { given [] 0x2400 with sp := 16 } = .next t :=
  ⟨_, rfl, by decide, rfl⟩
theorem witness_ErrorPriority_fetch : ∃ t, firstError .fallbackZero { State.reset with pc := 0xFFF } = 5 ∧
    Machine.step { State.reset with pc := 0xFFF } = .next t := ⟨_, by decide, rfl⟩
theorem witness_ErrorPriority_draw : ∃ t, firstError .fallbackZero { given [] 0xD013 with i := 0xFFE } = 5 ∧
    firstError .fallbackZero { given [] 0xD012 with i := 0xFFE } = 0 ∧
    Machine.step { given [] 0xD013 with i := 0xFFE } = .next t := ⟨_, by decide, by decide, rfl⟩
theorem witness_ErrorPriority_return : ∃ t, firstError .fault retState = 6 ∧ firstError .fallbackZero retState = 0 ∧
    stepUnder faultAndWrap retState = .next t := ⟨_, by decide, by decide, rfl⟩
theorem witness_AddImmRoundTrip : (0x3B : Byte).toNat = (256 - (0xC5 : Byte).toNat) % 256 ∧
    (0 : Byte).toNat = (256 - (0 : Byte).toNat) % 256 := by decide
theorem witness_flag_statements : (0xE : Reg) ≠ vf := by decide
theorem witness_RndMasksOneFreshDraw :
    (∀ x nn, Instr.cls ≠ .rnd x nn) ∧ ∃ t, exec .cls State.reset = .next t := ⟨nofun, _, rfl⟩
theorem witness_SkipsOnRegister : (fieldF 0x9121 = 5 ∨ fieldF 0x9121 = 9) ∧ fieldN 0x9121 ≠ 0 := by decide
theorem witness_SkipsOnKey_valid : ((State.reset.setReg 4 15).reg 4).toNat = (15 : Fin 16).val := by decide
theorem witness_SkipsOnKey_invalid : 15 < ((State.reset.setReg 4 16).reg 4).toNat := by decide
theorem witness_CallPushesOrOverflows : ({ State.reset with sp := 15 } : State).sp < 16 ∧
    ({ State.reset with sp := 16 } : State).sp = 16 := by decide
theorem witness_RetPopsOrFallsBack : 0 < ({ State.reset with sp := 16 } : State).sp ∧
    ({ State.reset with sp := 16 } : State).sp ≤ 16 ∧ State.reset.sp = 0 := by decide
theorem witness_CallThenReturn : State.reset.sp < 16 ∧ ∃ t u, execUnder Config.params (.call 0x206) State.reset = .next t ∧
    OpsAbove Config.params (State.reset.sp + 1) t u ∧ u.sp = State.reset.sp + 1 ∧ u.key[3] = true :=
  ⟨by decide, _, _, rfl, .tail (o := .key 3 true) (.refl _) nofun rfl (by decide), rfl, by decide⟩
theorem witness_CallThenReturn_steps : callState.sp < 16 ∧ callState.fault = 0 ∧
    fetch callState = .ok (encode (.call 0x206)) ∧ ∃ t u, stepUnder Config.params callState = .next t ∧
    OpsAbove Config.params (callState.sp + 1) t u ∧ u.sp = callState.sp + 1 ∧ u.fault = 0 ∧ fetch u = .ok 0x00EE :=
  ⟨by decide, rfl, by decide, _, _, rfl, .tail (o := .timerTick true true) (.refl _) nofun rfl (by decide), rfl, rfl,
    by decide⟩
theorem witness_EmptyReturnRunsIntoVacantMemory : retState.Inv ∧ retState.fault = 0 ∧ retState.sp = 0 ∧
    fetch retState = .ok 0x00EE := ⟨retState_inv, rfl, rfl, by decide⟩
theorem witness_DrwXorsSpriteWithCollision : ∀ r, r < 2 → ({ State.reset with i := 0xFFE } : State).i.toNat + r ≤ 0xFFF := by
  decide
theorem witness_DrwOutsideMemoryFaults : ∃ r, r < 3 ∧ 0xFFF < ({ State.reset with i := 0xFFE } : State).i.toNat + r :=
  ⟨2, by decide⟩
theorem witness_DrwOutsideMemoryFaults_index : ({ State.reset with i := 0xFFE } : State).i.toNat ≤ 0xFFF := by decide
theorem witness_DrawingTwiceRestoresScreen : (0 : Reg) ≠ vf ∧ (1 : Reg) ≠ vf ∧
    ∀ r, r < 15 → ({ State.reset with i := 0x050 } : State).i.toNat + r ≤ 0xFFF := by decide
theorem witness_completed_instruction : ∃ t, exec (.call 0x400) State.reset = .next t := ⟨_, rfl⟩
theorem witness_completed_step : ∃ t, Machine.step retState = .next t := ⟨_, rfl⟩
theorem witness_IndexAndStackWriters : (∀ nnn, Instr.cls ≠ .ldI nnn) ∧ (∀ nnn, Instr.cls ≠ .call nnn) ∧
    Instr.cls ≠ .ret ∧ ∃ t, exec .cls State.reset = .next t := ⟨nofun, nofun, nofun, _, rfl⟩
theorem witness_ScreenWriters : Instr.ret ≠ .cls ∧ (∀ x y n, Instr.ret ≠ .drw x y n) ∧
    ∃ t, exec .ret State.reset = .next t := ⟨nofun, nofun, _, rfl⟩
theorem witness_KeysAreReadOnlyByKeySkips : (∀ x, Instr.ret ≠ .skp x) ∧ (∀ x, Instr.ret ≠ .sknp x) ∧
    ∃ t, exec .ret State.reset = .next t := ⟨nofun, nofun, _, rfl⟩
theorem witness_DeadStackEntriesAreInvisible : ∃ t, retState.sp ≤ 16 ∧
    SameButDeadStack retState { retState with stack := Vector.replicate 16 7 } ∧ Machine.step retState = .next t :=
  ⟨_, by decide, ⟨rfl, fun k h => absurd h (Nat.not_lt_zero k.val)⟩, rfl⟩
theorem retState_invUnder : ({ retState with mem := Memory.write (fontMemory faultAndWrap.font) 0x201 0xEE } :
    State).InvUnder faultAndWrap where
  pc_le := by decide
  i_le := by decide
  sp_le := by decide
  live_le := fun k h => absurd h (Nat.not_lt_zero k.val)
  mem_wf := Memory.wf_write (wf_fontMemory _) (by decide) _
  low_kept := fun a h => by
    rw [Memory.read_write_ne _ _ (by omega), read_fontMemory]
  fault_eq := rfl
  fault_closed := fun h => absurd rfl h
theorem witness_parameters : ∃ t u, faultAndWrap.emptyRetPolicy = .fault ∧ faultAndWrap.timerUnderflow = .wrap ∧
    stepUnder faultAndWrap { retState with mem := Memory.write (fontMemory faultAndWrap.font) 0x201 0xEE } = .next t ∧
    t.fault = 6 ∧ performUnder faultAndWrap (.timerTick true false) (State.resetUnder faultAndWrap) = .next (u, .none) ∧
    u.dt = 0xFF := ⟨_, _, rfl, rfl, rfl, by decide, rfl, by decide⟩
theorem witness_TimersAreZeroInEverySession_saturate : Config.params.timerUnderflow = .saturate ∧
    ∃ s, ReachableUnder Config.params s := ⟨rfl, _, [], rfl⟩
theorem witness_ParametersGiveThisHardware : (Instr.ret = .ret → 0 < ({ State.reset with sp := 1 } : State).sp) ∧
    (∀ x nn, Instr.ret ≠ .rnd x nn) ∧ HostOp.status ≠ .reset ∧ HostOp.status ≠ .step ∧
    ∀ d e, HostOp.status ≠ .timerTick d e := ⟨fun _ => by decide, nofun, nofun, nofun, nofun⟩
theorem witness_StepKeepsInv : ∃ t, retState.Inv ∧ Machine.step retState = .next t := ⟨_, retState_inv, rfl⟩
theorem witness_HostOperationsKeepInv : ∃ t r, retState.Inv ∧ perform (.load [0x12, 0x00]) retState = .next (t, r) :=
  ⟨_, _, retState_inv, rfl⟩
theorem witness_TimersAreZeroInEverySession :
    ∃ s, Reachable s ∧ s.key[3] = true := ⟨_, ⟨[.load [0x12, 0x00], .key 3 true, .timerTick true true], rfl⟩, by decide⟩
theorem witness_LoadCopiesImageOrFails : State.reset.loadable = true ∧ State.reset.fault = 0 ∧
    Memory.wf State.reset.mem ∧ (List.replicate 3584 (0xAB : Byte)).length ≤ 3584 ∧
    3584 < (List.replicate 3585 (0x01 : Byte)).length :=
  ⟨rfl, rfl, Memory.wf_nil, by rw [List.length_replicate], by rw [List.length_replicate]; omega⟩
theorem witness_LoadIsAcceptedOnlyOnce : State.reset.closeLoad.loadable = false ∧
    (∃ t r, perform (.load []) State.reset = .next (t, r)) ∧ State.reset.fault = 0 ∧
    ∃ t, Machine.step State.reset = .next t := ⟨rfl, ⟨_, _, rfl⟩, rfl, _, rfl⟩
theorem witness_TimerTickCountsDown : 0 < (1 : Byte).toNat := by decide
theorem witness_KeySetsOneKey : (14 : Fin 16) ≠ 15 ∧ 16 ≤ 16 := by decide
theorem witness_FbReadIsRowMajor : 63 < 64 ∧ 31 < 32 := by decide
theorem witness_HaltLoopRepeatsForever : let s : State := { (given [] 0x1200) with loadable := false }
    Halted s ∧ s.loadable = false := by decide

end Sys2Proof.Tests
end

section
/-! SUPPORT. The instruction fetch as a read of memory (spec 20_memory.md R55). -/

namespace Sys2Proof

/-- The byte at the lower address is the high one. -/
theorem toNat_wordOfBytes (hi lo : Byte) : (wordOfBytes hi lo).toNat = 256 * hi.toNat + lo.toNat := by
  rw [wordOfBytes, BitVec.toNat_append, ← Nat.shiftLeft_add_eq_or_of_lt lo.isLt, Nat.shiftLeft_eq]
  omega

namespace Machine

/-- In the range where both bytes lie in memory, the fetch succeeds. -/
theorem fetch_eq_ok {s : State} (h : s.pc.toNat ≤ 0xFFE) : fetch s = .ok s.wordAtPc := by
  rcases fetch_cases s with ⟨-, hok⟩ | ⟨hpc, -⟩ | ⟨hpc, -⟩
  · exact hok
  · omega
  · omega

/-- Settles O8: the fetch gives the word at PC, and `toNat_wordOfBytes` reads it as a number. -/
theorem fetchIsBigEndian : Obligations.FetchIsBigEndian :=
  fun s h => ⟨s.wordAtPc, fetch_eq_ok h, toNat_wordOfBytes _ _⟩

end Machine

end Sys2Proof
end

section
/-! SUPPORT. The opcode's fields as numbers (spec 30_encoding.md R73). -/

namespace Sys2Proof

theorem toNat_fieldF (op : Word) : (fieldF op).toNat = op.toNat / 4096 := by
  rw [fieldF, BitVec.extractLsb'_toNat, Nat.shiftRight_eq_div_pow]
  omega

theorem val_fieldX (op : Word) : (fieldX op).val = op.toNat / 256 % 16 := by
  rw [fieldX, BitVec.val_toFin, BitVec.extractLsb'_toNat, Nat.shiftRight_eq_div_pow]

theorem val_fieldY (op : Word) : (fieldY op).val = op.toNat / 16 % 16 := by
  rw [fieldY, BitVec.val_toFin, BitVec.extractLsb'_toNat, Nat.shiftRight_eq_div_pow]

theorem toNat_fieldN (op : Word) : (fieldN op).toNat = op.toNat % 16 := by
  rw [fieldN, BitVec.extractLsb'_toNat, Nat.shiftRight_zero]

theorem toNat_fieldNN (op : Word) : (fieldNN op).toNat = op.toNat % 256 := by
  rw [fieldNN, BitVec.extractLsb'_toNat, Nat.shiftRight_zero]

theorem toNat_fieldNNN (op : Word) : (fieldNNN op).toNat = op.toNat % 4096 := by
  rw [fieldNNN, BitVec.extractLsb'_toNat, Nat.shiftRight_zero]

/-- Settles O6: a field of `w` bits from bit `k` up is the opcode divided by `2 ^ k`, modulo `2 ^ w`. -/
theorem fieldsAreTheOpcodeBits : Obligations.FieldsAreTheOpcodeBits := fun op =>
  ⟨toNat_fieldF op, val_fieldX op, val_fieldY op, toNat_fieldN op, toNat_fieldNN op, toNat_fieldNNN op⟩

end Sys2Proof
end

section
/-! SUPPORT. The decoder, row by row of the opcode map: a word matches the row of the instruction it decodes to, and
`EncodedAs` for every row (spec 30_encoding.md R75, R80). -/

namespace Sys2Proof

/-- Only the words of family 0x0 can be null. -/
theorem ne_zero_of_fieldF {op : Word} {f : BitVec 4} (hf : f ≠ 0) (hF : fieldF op = f) : op ≠ 0#16 := by
  rintro rfl
  exact hf hF.symm

/-- The decoder dispatches on a field's number; the masks speak of the field. -/
theorem eq_ofNat_of_toNat {w n : Nat} {b : BitVec w} (h : b.toNat = n) : b = BitVec.ofNat w n := by
  rw [← h, BitVec.ofNat_toNat, BitVec.setWidth_eq]

/-! A word matches the row of the instruction it decodes to. -/

theorem and_row_of_decodeFamily0 {op : Word} {i : Instr} (h : decodeFamily0 op = .instr i) :
    op &&& i.row.2 = i.row.1 := by
  unfold decodeFamily0 at h
  split_ifs at h with hcls hret
  · cases h
    rw [hcls]
    rfl
  · cases h
    rw [hret]
    rfl

theorem and_row_of_decodeFamily8 {op : Word} {i : Instr} (hF : fieldF op = 0x8)
    (h : decodeFamily8 op = .instr i) : op &&& i.row.2 = i.row.1 := by
  unfold decodeFamily8 at h
  split at h <;> cases h
  all_goals
    rename_i hN
    exact ((and_F00F_iff op _ _).mpr ⟨hF, eq_ofNat_of_toNat hN⟩ :)

theorem and_row_of_decodeFamilyE {op : Word} {i : Instr} (hF : fieldF op = 0xE)
    (h : decodeFamilyE op = .instr i) : op &&& i.row.2 = i.row.1 := by
  unfold decodeFamilyE at h
  split_ifs at h with hskp hsknp
  · cases h
    exact (and_F0FF_iff op _ _).mpr ⟨hF, hskp⟩
  · cases h
    exact (and_F0FF_iff op _ _).mpr ⟨hF, hsknp⟩

/-- A word has the pattern of the instruction it decodes to, under that instruction's mask. -/
theorem and_row_of_decode {op : Word} {i : Instr} (h : decode op = .instr i) : op &&& i.row.2 = i.row.1 := by
  unfold decode at h
  split at h
  · cases h
  -- Arm `k` of the match, counted from 1, is family `k - 1`; the last arm is every other family.
  split at h <;> rename_i hF
  case h_1 => exact and_row_of_decodeFamily0 h
  case h_9 => exact and_row_of_decodeFamily8 (eq_ofNat_of_toNat hF) h
  case h_15 => exact and_row_of_decodeFamilyE (eq_ofNat_of_toNat hF) h
  case h_6 | h_10 =>
    split at h <;> cases h
    next hN => exact ((and_F00F_iff op _ _).mpr ⟨eq_ofNat_of_toNat hF, hN⟩ :)
  case h_16 => cases h
  all_goals
    cases h
    exact ((and_F000_iff op _).mpr (eq_ofNat_of_toNat hF) :)

/-- The row of the opcode map an instruction stands for, as the map writes it. -/
def Instr.opcodeRow (i : Instr) : OpcodeRow := ⟨i.mnemonic, i.row.1, i.row.2⟩

theorem opcodeRow_mem_opcodeTable (i : Instr) : i.opcodeRow ∈ opcodeTable := by
  cases i <;> exact of_decide_eq_true rfl

theorem nodup_opcodeTable_mnemonic : (opcodeTable.map OpcodeRow.mnemonic).Nodup := by decide

/-- The mnemonic names the row. -/
theorem opcodeRow_eq_of_mnemonic {i : Instr} {r : OpcodeRow} (hr : r ∈ opcodeTable)
    (h : i.mnemonic = r.mnemonic) : i.opcodeRow = r :=
  List.inj_on_of_nodup_map nodup_opcodeTable_mnemonic (opcodeRow_mem_opcodeTable i) hr h

namespace Machine

/-! The rows of the opcode map, one `EncodedAs` each. Under each mask, the forward direction is `and_row_of_decode`; the
other one is left to the decoder's arm for the fields the mask fixes. -/

section Masks

variable {g : Word → Instr} (f : BitVec 4)

theorem encodedAs_of_row {pattern mask : Word} (hrow : ∀ op, (g op).row = (pattern, mask))
    (hdec : ∀ op, op &&& mask = pattern → decode op = .instr (g op)) : EncodedAs pattern mask g := by
  intro op
  constructor
  · intro h
    simpa only [hrow] using and_row_of_decode h
  · exact hdec op

theorem encodedAs_FFFF {word : Word} (hrow : ∀ op, (g op).row = (word, 0xFFFF))
    (hdec : decode word = .instr (g word)) : EncodedAs word 0xFFFF g :=
  encodedAs_of_row hrow fun op h => by
    have hop : op = word := BitVec.and_allOnes.symm.trans h
    rwa [hop]

theorem encodedAs_F000 (hrow : ∀ op, (g op).row = (wordNNN f 0, 0xF000))
    (hdec : ∀ op, op ≠ 0#16 → fieldF op = f → decode op = .instr (g op)) (hf : f ≠ 0 := by decide) :
    EncodedAs (wordNNN f 0) 0xF000 g :=
  encodedAs_of_row hrow fun op h =>
    have hF := (and_F000_iff op f).mp h
    hdec op (ne_zero_of_fieldF hf hF) hF

theorem encodedAs_F00F (n : BitVec 4) (hrow : ∀ op, (g op).row = (wordXYN f 0 0 n, 0xF00F))
    (hdec : ∀ op, op ≠ 0#16 → fieldF op = f → fieldN op = n → decode op = .instr (g op))
    (hf : f ≠ 0 := by decide) : EncodedAs (wordXYN f 0 0 n) 0xF00F g :=
  encodedAs_of_row hrow fun op h =>
    have ⟨hF, hN⟩ := (and_F00F_iff op f n).mp h
    hdec op (ne_zero_of_fieldF hf hF) hF hN

theorem encodedAs_F0FF (nn : Byte) (hrow : ∀ op, (g op).row = (wordXNN f 0 nn, 0xF0FF))
    (hdec : ∀ op, op ≠ 0#16 → fieldF op = f → fieldNN op = nn → decode op = .instr (g op))
    (hf : f ≠ 0 := by decide) : EncodedAs (wordXNN f 0 nn) 0xF0FF g :=
  encodedAs_of_row hrow fun op h =>
    have ⟨hF, hNN⟩ := (and_F0FF_iff op f nn).mp h
    hdec op (ne_zero_of_fieldF hf hF) hF hNN

end Masks

theorem encodedAs_cls : EncodedAs 0x00E0 0xFFFF (fun _ => .cls) := encodedAs_FFFF (fun _ => rfl) rfl

theorem encodedAs_ret : EncodedAs 0x00EE 0xFFFF (fun _ => .ret) := encodedAs_FFFF (fun _ => rfl) rfl

theorem encodedAs_jp : EncodedAs 0x1000 0xF000 (fun op => .jp (fieldNNN op)) :=
  encodedAs_F000 0x1 (fun _ => rfl) fun op h0 hF => by simp [decode, h0, hF]

theorem encodedAs_call : EncodedAs 0x2000 0xF000 (fun op => .call (fieldNNN op)) :=
  encodedAs_F000 0x2 (fun _ => rfl) fun op h0 hF => by simp [decode, h0, hF]

theorem encodedAs_seImm : EncodedAs 0x3000 0xF000 (fun op => .seImm (fieldX op) (fieldNN op)) :=
  encodedAs_F000 0x3 (fun _ => rfl) fun op h0 hF => by simp [decode, h0, hF]

theorem encodedAs_sneImm : EncodedAs 0x4000 0xF000 (fun op => .sneImm (fieldX op) (fieldNN op)) :=
  encodedAs_F000 0x4 (fun _ => rfl) fun op h0 hF => by simp [decode, h0, hF]

theorem encodedAs_seReg : EncodedAs 0x5000 0xF00F (fun op => .seReg (fieldX op) (fieldY op)) :=
  encodedAs_F00F 0x5 0x0 (fun _ => rfl) fun op h0 hF hN => by simp [decode, h0, hF, hN]

theorem encodedAs_ldImm : EncodedAs 0x6000 0xF000 (fun op => .ldImm (fieldX op) (fieldNN op)) :=
  encodedAs_F000 0x6 (fun _ => rfl) fun op h0 hF => by simp [decode, h0, hF]

theorem encodedAs_addImm : EncodedAs 0x7000 0xF000 (fun op => .addImm (fieldX op) (fieldNN op)) :=
  encodedAs_F000 0x7 (fun _ => rfl) fun op h0 hF => by simp [decode, h0, hF]

theorem encodedAs_ldReg : EncodedAs 0x8000 0xF00F (fun op => .ldReg (fieldX op) (fieldY op)) :=
  encodedAs_F00F 0x8 0x0 (fun _ => rfl) fun op h0 hF hN => by simp [decode, decodeFamily8, h0, hF, hN]

theorem encodedAs_orReg : EncodedAs 0x8001 0xF00F (fun op => .orReg (fieldX op) (fieldY op)) :=
  encodedAs_F00F 0x8 0x1 (fun _ => rfl) fun op h0 hF hN => by simp [decode, decodeFamily8, h0, hF, hN]

theorem encodedAs_andReg : EncodedAs 0x8002 0xF00F (fun op => .andReg (fieldX op) (fieldY op)) :=
  encodedAs_F00F 0x8 0x2 (fun _ => rfl) fun op h0 hF hN => by simp [decode, decodeFamily8, h0, hF, hN]

theorem encodedAs_xorReg : EncodedAs 0x8003 0xF00F (fun op => .xorReg (fieldX op) (fieldY op)) :=
  encodedAs_F00F 0x8 0x3 (fun _ => rfl) fun op h0 hF hN => by simp [decode, decodeFamily8, h0, hF, hN]

theorem encodedAs_addReg : EncodedAs 0x8004 0xF00F (fun op => .addReg (fieldX op) (fieldY op)) :=
  encodedAs_F00F 0x8 0x4 (fun _ => rfl) fun op h0 hF hN => by simp [decode, decodeFamily8, h0, hF, hN]

theorem encodedAs_subReg : EncodedAs 0x8005 0xF00F (fun op => .subReg (fieldX op) (fieldY op)) :=
  encodedAs_F00F 0x8 0x5 (fun _ => rfl) fun op h0 hF hN => by simp [decode, decodeFamily8, h0, hF, hN]

theorem encodedAs_shrReg : EncodedAs 0x8006 0xF00F (fun op => .shrReg (fieldX op) (fieldY op)) :=
  encodedAs_F00F 0x8 0x6 (fun _ => rfl) fun op h0 hF hN => by simp [decode, decodeFamily8, h0, hF, hN]

theorem encodedAs_subnReg : EncodedAs 0x8007 0xF00F (fun op => .subnReg (fieldX op) (fieldY op)) :=
  encodedAs_F00F 0x8 0x7 (fun _ => rfl) fun op h0 hF hN => by simp [decode, decodeFamily8, h0, hF, hN]

theorem encodedAs_shlReg : EncodedAs 0x800E 0xF00F (fun op => .shlReg (fieldX op) (fieldY op)) :=
  encodedAs_F00F 0x8 0xE (fun _ => rfl) fun op h0 hF hN => by simp [decode, decodeFamily8, h0, hF, hN]

theorem encodedAs_sneReg : EncodedAs 0x9000 0xF00F (fun op => .sneReg (fieldX op) (fieldY op)) :=
  encodedAs_F00F 0x9 0x0 (fun _ => rfl) fun op h0 hF hN => by simp [decode, h0, hF, hN]

theorem encodedAs_ldI : EncodedAs 0xA000 0xF000 (fun op => .ldI (fieldNNN op)) :=
  encodedAs_F000 0xA (fun _ => rfl) fun op h0 hF => by simp [decode, h0, hF]

theorem encodedAs_jpV0 : EncodedAs 0xB000 0xF000 (fun op => .jpV0 (fieldNNN op)) :=
  encodedAs_F000 0xB (fun _ => rfl) fun op h0 hF => by simp [decode, h0, hF]

theorem encodedAs_rnd : EncodedAs 0xC000 0xF000 (fun op => .rnd (fieldX op) (fieldNN op)) :=
  encodedAs_F000 0xC (fun _ => rfl) fun op h0 hF => by simp [decode, h0, hF]

theorem encodedAs_drw : EncodedAs 0xD000 0xF000 (fun op => .drw (fieldX op) (fieldY op) (fieldN op).toNat) :=
  encodedAs_F000 0xD (fun _ => rfl) fun op h0 hF => by simp [decode, h0, hF]

theorem encodedAs_skp : EncodedAs 0xE09E 0xF0FF (fun op => .skp (fieldX op)) :=
  encodedAs_F0FF 0xE 0x9E (fun _ => rfl) fun op h0 hF hNN => by simp [decode, decodeFamilyE, h0, hF, hNN]

theorem encodedAs_sknp : EncodedAs 0xE0A1 0xF0FF (fun op => .sknp (fieldX op)) :=
  encodedAs_F0FF 0xE 0xA1 (fun _ => rfl) fun op h0 hF hNN => by simp [decode, decodeFamilyE, h0, hF, hNN]

/-- Every row of the opcode map is the encoding of an instruction with the row's mnemonic. -/
theorem exists_encodedAs_of_mem_opcodeTable : ∀ r ∈ opcodeTable,
    ∃ g : Word → Instr, EncodedAs r.pattern r.mask g ∧ ∀ op, (g op).mnemonic = r.mnemonic := by
  simp only [opcodeTable, opcodeRowsLow, opcodeRows8, opcodeRowsHigh, List.cons_append, List.nil_append,
    List.forall_mem_cons, List.not_mem_nil, false_imp_iff, implies_true, and_true]
  exact ⟨
    ⟨_, encodedAs_cls, fun _ => rfl⟩, ⟨_, encodedAs_ret, fun _ => rfl⟩,
    ⟨_, encodedAs_jp, fun _ => rfl⟩, ⟨_, encodedAs_call, fun _ => rfl⟩,
    ⟨_, encodedAs_seImm, fun _ => rfl⟩, ⟨_, encodedAs_sneImm, fun _ => rfl⟩,
    ⟨_, encodedAs_seReg, fun _ => rfl⟩, ⟨_, encodedAs_ldImm, fun _ => rfl⟩,
    ⟨_, encodedAs_addImm, fun _ => rfl⟩, ⟨_, encodedAs_ldReg, fun _ => rfl⟩,
    ⟨_, encodedAs_orReg, fun _ => rfl⟩, ⟨_, encodedAs_andReg, fun _ => rfl⟩,
    ⟨_, encodedAs_xorReg, fun _ => rfl⟩, ⟨_, encodedAs_addReg, fun _ => rfl⟩,
    ⟨_, encodedAs_subReg, fun _ => rfl⟩, ⟨_, encodedAs_shrReg, fun _ => rfl⟩,
    ⟨_, encodedAs_subnReg, fun _ => rfl⟩, ⟨_, encodedAs_shlReg, fun _ => rfl⟩,
    ⟨_, encodedAs_sneReg, fun _ => rfl⟩, ⟨_, encodedAs_ldI, fun _ => rfl⟩,
    ⟨_, encodedAs_jpV0, fun _ => rfl⟩, ⟨_, encodedAs_rnd, fun _ => rfl⟩,
    ⟨_, encodedAs_drw, fun _ => rfl⟩, ⟨_, encodedAs_skp, fun _ => rfl⟩,
    ⟨_, encodedAs_sknp, fun _ => rfl⟩⟩

/-- Settles O3: a word with a row's pattern under its mask decodes by the row's `EncodedAs`; an instruction that a word
decodes to has its row in the map, which the word matches and the mnemonic names. -/
theorem opcodeMapDecidesEveryInstruction : Obligations.OpcodeMapDecidesEveryInstruction := by
  refine ⟨rfl, fun r hr op => ⟨fun h => ?_, ?_⟩, fun _ i _ => ⟨i.opcodeRow, opcodeRow_mem_opcodeTable i, rfl⟩⟩
  · obtain ⟨g, henc, hname⟩ := exists_encodedAs_of_mem_opcodeTable r hr
    exact ⟨g op, (henc op).mpr h, hname op⟩
  · rintro ⟨i, hdec, hname⟩
    rw [← opcodeRow_eq_of_mnemonic hr hname]
    exact and_row_of_decode hdec

end Machine

end Sys2Proof
end

section
/-! SUPPORT. The arithmetic/logic family (spec 40_alu.md): the flag values, the frame of a register write, the answer
of each instruction. -/

namespace Sys2Proof.Machine

/-! ### The flag values (R108–R114) -/

theorem carryFlag_eq (a b : Byte) : carryFlag a b = if 255 < a.toNat + b.toNat then 1 else 0 := by
  simp only [carryFlag, flagByte, decide_eq_true_eq]

theorem notBorrowFlag_eq (a b : Byte) : notBorrowFlag a b = if a.toNat < b.toNat then 0 else 1 := by
  by_cases h : a.toNat < b.toNat <;> simp [notBorrowFlag, flagByte, h]

theorem toNat_flagByte (c : Bool) : (flagByte c).toNat = c.toNat := by cases c <;> rfl

theorem toNat_shiftRightFlag (a : Byte) : (shiftRightFlag a).toNat = a.toNat % 2 := by
  rw [shiftRightFlag, toNat_flagByte, BitVec.getLsbD, Nat.toNat_testBit, Nat.pow_zero, Nat.div_one]

theorem toNat_shiftLeftFlag (a : Byte) : (shiftLeftFlag a).toNat = a.toNat / 128 := by
  rw [shiftLeftFlag, toNat_flagByte, BitVec.getLsbD, Nat.toNat_testBit]
  omega

/-! ### Byte arithmetic as numbers (R99) -/

/-- A difference of bytes wraps to the remainder of the signed difference. -/
theorem toNat_byte_sub (a b : Byte) : ((a - b).toNat : Int) = ((a.toNat : Int) - b.toNat) % 256 := by
  rw [BitVec.toNat_sub]
  omega

theorem toNat_byte_shiftLeft_one (a : Byte) : (a <<< 1).toNat = 2 * a.toNat % 256 := by
  rw [BitVec.toNat_shiftLeft, Nat.shiftLeft_eq, Nat.mul_comm]

/-! ### The frame of a write of V[X], of V[X] and VF, and of I -/

theorem onlyRegsDiffer_setReg (s : State) (x : Reg) (b : Byte) : OnlyRegsDiffer s (s.setReg x b) :=
  ⟨rfl, rfl, ⟨rfl, fun _ => rfl⟩, fun _ _ => rfl, fun _ => rfl, ⟨rfl, rfl, fun _ => rfl⟩, rfl, rfl, rfl⟩

/-- A register write changes that register alone. -/
theorem setReg_frame (s : State) (x : Reg) (b : Byte) :
    RegsKeptBut x s (s.setReg x b) ∧ OnlyRegsDiffer s (s.setReg x b) ∧ (s.setReg x b).draws = s.draws :=
  ⟨fun _ h => State.setReg_reg_ne s b h, onlyRegsDiffer_setReg s x b, rfl⟩

/-- A register write with a flag changes that register and VF alone (10_state.md R22). -/
theorem setRegFlag_frame (s : State) (x : Reg) (r f : Byte) :
    RegsKeptButFlagAnd x s (s.setRegFlag x r f) ∧ OnlyRegsDiffer s (s.setRegFlag x r f) ∧
      (s.setRegFlag x r f).draws = s.draws :=
  ⟨fun _ hx hf => State.setRegFlag_reg_other s r f hx hf, onlyRegsDiffer_setReg (s.setReg x r) vf f, rfl⟩

/-- A write of I changes I alone (10_state.md R27). -/
theorem setI_frame (s : State) (a : Word) :
    (s.setI a).pc = s.pc ∧ RegsKept s (s.setI a) ∧ StackKept s (s.setI a) ∧ ScreenKept s (s.setI a) ∧
      SystemKept s (s.setI a) ∧ (s.setI a).draws = s.draws :=
  ⟨rfl, fun _ => rfl, ⟨rfl, fun _ => rfl⟩, fun _ _ => rfl,
    ⟨fun _ => rfl, ⟨rfl, rfl, fun _ => rfl⟩, rfl, rfl, rfl⟩, rfl⟩

/-! ### The answer of each instruction -/

section Exec

variable (x y : Reg) (nn : Byte) (nnn : BitVec 12) (s : State)

theorem exec_ldImm : exec (.ldImm x nn) s = .next (s.setReg x nn) := rfl

theorem exec_addImm : exec (.addImm x nn) s = .next (s.setReg x (s.reg x + nn)) := rfl

theorem exec_ldReg : exec (.ldReg x y) s = .next (s.setReg x (s.reg y)) := rfl

theorem exec_orReg : exec (.orReg x y) s = .next (s.setReg x (s.reg x ||| s.reg y)) := rfl

theorem exec_andReg : exec (.andReg x y) s = .next (s.setReg x (s.reg x &&& s.reg y)) := rfl

theorem exec_xorReg : exec (.xorReg x y) s = .next (s.setReg x (s.reg x ^^^ s.reg y)) := rfl

theorem exec_addReg : exec (.addReg x y) s =
    .next (s.setRegFlag x (s.reg x + s.reg y) (carryFlag (s.reg x) (s.reg y))) := rfl

theorem exec_subReg : exec (.subReg x y) s =
    .next (s.setRegFlag x (s.reg x - s.reg y) (notBorrowFlag (s.reg x) (s.reg y))) := rfl

theorem exec_subnReg : exec (.subnReg x y) s =
    .next (s.setRegFlag x (s.reg y - s.reg x) (notBorrowFlag (s.reg y) (s.reg x))) := rfl

theorem exec_shrReg : exec (.shrReg x y) s =
    .next (s.setRegFlag x (s.reg x >>> 1) (shiftRightFlag (s.reg x))) :=
  congrArg Host.Outcome.next (shrUnder_eq Config.quirkVariant x y s)

theorem exec_shlReg : exec (.shlReg x y) s =
    .next (s.setRegFlag x (s.reg x <<< 1) (shiftLeftFlag (s.reg x))) :=
  congrArg Host.Outcome.next (shlUnder_eq Config.quirkVariant x y s)

theorem exec_ldI : exec (.ldI nnn) s = .next (s.setI (addrOperand nnn)) := rfl

end Exec

/-! ### The obligations: instructions that write one register -/

/-- Settles O15: the answer is one register write, whose frame is `setReg_frame`. -/
theorem ldImmSetsRegister : Obligations.LdImmSetsRegister :=
  ⟨encodedAs_ldImm, fun x nn s =>
    ⟨_, exec_ldImm x nn s, State.setReg_reg_same s x nn, setReg_frame s x nn⟩⟩

/-- Settles O16: the sum of bytes is the sum modulo 256, and VF is written only as the destination. -/
theorem addImmWrapsWithoutFlag : Obligations.AddImmWrapsWithoutFlag := by
  refine ⟨encodedAs_addImm, fun x nn s => ⟨_, exec_addImm x nn s, ?_, setReg_frame s x _⟩⟩
  rw [State.setReg_reg_same, BitVec.toNat_add]

/-- Settles O18: the answer is one register write. -/
theorem ldRegCopiesRegister : Obligations.LdRegCopiesRegister :=
  ⟨encodedAs_ldReg, fun x y s =>
    ⟨_, exec_ldReg x y s, State.setReg_reg_same s x _, setReg_frame s x _⟩⟩

/-- Settles O19: the written byte is the bitwise operation, and VF is written only as the destination. -/
theorem logicInstructionsAreBitwise : Obligations.LogicInstructionsAreBitwise := by
  refine ⟨encodedAs_orReg, encodedAs_andReg, encodedAs_xorReg, fun x y s =>
    ⟨⟨_, exec_orReg x y s, fun b => ?_, setReg_frame s x _⟩,
      ⟨_, exec_andReg x y s, fun b => ?_, setReg_frame s x _⟩,
      ⟨_, exec_xorReg x y s, fun b => ?_, setReg_frame s x _⟩⟩⟩
  · rw [State.setReg_reg_same, BitVec.getLsbD_or]
  · rw [State.setReg_reg_same, BitVec.getLsbD_and]
  · rw [State.setReg_reg_same, BitVec.getLsbD_xor]

/-! ### The obligations: instructions that write VF last -/

/-- Settles O20: VF, written last, holds the carry whatever X and Y are. -/
theorem addRegSetsCarry : Obligations.AddRegSetsCarry := by
  refine ⟨encodedAs_addReg, fun x y s => ⟨_, exec_addReg x y s, ?_, fun hx => ?_, setRegFlag_frame s x _ _⟩⟩
  · rw [State.setRegFlag_reg_vf, carryFlag_eq]
  · rw [State.setRegFlag_reg_dest s _ _ hx, BitVec.toNat_add]

/-- Settles O21: VF, written last, holds the not-borrow of V[X] − V[Y]. -/
theorem subRegSetsNotBorrow : Obligations.SubRegSetsNotBorrow := by
  refine ⟨encodedAs_subReg, fun x y s => ⟨_, exec_subReg x y s, ?_, fun hx => ?_, setRegFlag_frame s x _ _⟩⟩
  · rw [State.setRegFlag_reg_vf, notBorrowFlag_eq]
  · rw [State.setRegFlag_reg_dest s _ _ hx, toNat_byte_sub]

/-- Settles O22: VF, written last, holds the not-borrow of V[Y] − V[X]. -/
theorem subnRegSetsNotBorrow : Obligations.SubnRegSetsNotBorrow := by
  refine ⟨encodedAs_subnReg, fun x y s => ⟨_, exec_subnReg x y s, ?_, fun hx => ?_, setRegFlag_frame s x _ _⟩⟩
  · rw [State.setRegFlag_reg_vf, notBorrowFlag_eq]
  · rw [State.setRegFlag_reg_dest s _ _ hx, toNat_byte_sub]

/-- Settles O23: VF, written last, holds the bit shifted out at the right; the answer does not name Y. -/
theorem shrRegShiftsRight : Obligations.ShrRegShiftsRight := by
  refine ⟨encodedAs_shrReg, fun x y s => ⟨_, exec_shrReg x y s, ?_, fun hx => ?_, setRegFlag_frame s x _ _⟩⟩
  · rw [State.setRegFlag_reg_vf, toNat_shiftRightFlag]
  · rw [State.setRegFlag_reg_dest s _ _ hx, BitVec.toNat_ushiftRight, Nat.shiftRight_eq_div_pow, Nat.pow_one]

/-- Settles O24: VF, written last, holds the bit shifted out at the left; the answer does not name Y. -/
theorem shlRegShiftsLeft : Obligations.ShlRegShiftsLeft := by
  refine ⟨encodedAs_shlReg, fun x y s => ⟨_, exec_shlReg x y s, ?_, fun hx => ?_, setRegFlag_frame s x _ _⟩⟩
  · rw [State.setRegFlag_reg_vf, toNat_shiftLeftFlag]
  · rw [State.setRegFlag_reg_dest s _ _ hx, toNat_byte_shiftLeft_one]

/-! ### The obligation: the index register -/

/-- Settles O25: the answer writes I alone, with the value of NNN. -/
theorem ldISetsIndex : Obligations.LdISetsIndex :=
  ⟨encodedAs_ldI, fun nnn s => ⟨_, exec_ldI nnn s, addrOperand_toNat nnn, setI_frame s _⟩⟩

end Sys2Proof.Machine
end

section
/-! SUPPORT. The control-flow family without the stack (spec 41_control_flow.md): the frame of a write of PC, the answer
of each jump and skip. -/

namespace Sys2Proof.Machine

/-- A write of PC changes PC alone (10_state.md R25). -/
theorem onlyPcDiffers_setPc (s : State) (a : Word) : OnlyPcDiffers s (s.setPc a) :=
  ⟨fun _ => rfl, rfl, rfl, ⟨rfl, fun _ => rfl⟩, fun _ _ => rfl,
    ⟨fun _ => rfl, ⟨rfl, rfl, fun _ => rfl⟩, rfl, rfl, rfl⟩⟩

theorem toNat_zext16 (b : Byte) : (zext16 b).toNat = b.toNat :=
  BitVec.toNat_setWidth_of_le (by decide)

/-- A 12-bit address and a byte never carry out of 16 bits, so BNNN's sum is exact (R150). -/
theorem toNat_addrOperand_add_zext16 (nnn : BitVec 12) (b : Byte) :
    (addrOperand nnn + zext16 b).toNat = nnn.toNat + b.toNat := by
  have hnnn := nnn.isLt
  have hb := b.isLt
  rw [BitVec.toNat_add, addrOperand_toNat, toNat_zext16]
  omega

/-- The key of a valid index, which the host's key state holds under that index (R151). -/
theorem keyFlag_eq_some_key {s : State} {b : Byte} {k : Fin 16} (h : b.toNat = k.val) :
    keyFlag s b = some s.key[k] := by
  rw [keyFlag_valid s (h ▸ k.isLt)]
  simp only [h, Fin.getElem_fin]

/-! ### The answer of each jump and skip -/

section Exec

variable (x : Reg) (nn : Byte) (nnn : BitVec 12) (s : State)

theorem exec_jp : exec (.jp nnn) s = .next (s.setPc (addrOperand nnn)) := rfl

theorem exec_jpV0 : exec (.jpV0 nnn) s = .next (s.setPc (addrOperand nnn + zext16 (s.reg 0))) :=
  congrArg Host.Outcome.next (jpV0Under_eq Config.quirkVariant nnn s)

theorem exec_seImm : exec (.seImm x nn) s =
    .next (s.setPc (if s.reg x == nn then s.pc + 2 else s.pc)) :=
  congrArg Host.Outcome.next (State.skipIf_eq s _)

theorem exec_sneImm : exec (.sneImm x nn) s =
    .next (s.setPc (if s.reg x != nn then s.pc + 2 else s.pc)) :=
  congrArg Host.Outcome.next (State.skipIf_eq s _)

theorem exec_skp : exec (.skp x) s =
    .next (s.setPc (if keyFlag s (s.reg x) == some true then s.pc + 2 else s.pc)) :=
  congrArg Host.Outcome.next (State.skipIf_eq s _)

theorem exec_sknp : exec (.sknp x) s =
    .next (s.setPc (if keyFlag s (s.reg x) == some false then s.pc + 2 else s.pc)) :=
  congrArg Host.Outcome.next (State.skipIf_eq s _)

end Exec

/-! ### The obligations: jumps -/

/-- Settles O27: the answer is one write of PC, whose frame is `onlyPcDiffers_setPc`. -/
theorem jpSetsPc : Obligations.JpSetsPc :=
  ⟨encodedAs_jp, fun nnn s => ⟨_, exec_jp nnn s, addrOperand_toNat nnn, onlyPcDiffers_setPc s _⟩⟩

/-- Settles O28: the sum of a 12-bit address and a byte is below 2^16, so it is the sum of the numbers. -/
theorem jpV0AddsRegisterZero : Obligations.JpV0AddsRegisterZero :=
  ⟨encodedAs_jpV0, fun nnn s =>
    ⟨_, exec_jpV0 nnn s, toNat_addrOperand_add_zext16 nnn (s.reg 0), onlyPcDiffers_setPc s _⟩⟩

/-! ### The obligations: skips -/

/-- Settles O29: both answers are one write of PC; 4XNN's condition is the negation of 3XNN's. -/
theorem skipsOnImmediate : Obligations.SkipsOnImmediate := by
  refine ⟨encodedAs_seImm, encodedAs_sneImm, fun x nn s =>
    ⟨⟨_, exec_seImm x nn s, ?_, onlyPcDiffers_setPc s _⟩,
      ⟨_, exec_sneImm x nn s, ?_, onlyPcDiffers_setPc s _⟩⟩⟩
  · simp only [State.setPc_pc, beq_iff_eq]
  · simp only [State.setPc_pc, bne_iff_ne, ite_not]

/-- Settles O31: a valid index answers with its key, pressed or not; an index above 15 has no key, and neither
instruction's condition holds. -/
theorem skipsOnKey : Obligations.SkipsOnKey := by
  refine ⟨encodedAs_skp, encodedAs_sknp, fun x s =>
    ⟨_, _, exec_skp x s, exec_sknp x s, onlyPcDiffers_setPc s _, onlyPcDiffers_setPc s _, fun k hk => ?_,
      fun hk => ?_⟩⟩
  · rw [keyFlag_eq_some_key hk]
    cases s.key[k] with
    | true => exact ⟨rfl, rfl⟩
    | false => exact ⟨rfl, rfl⟩
  · rw [keyFlag_invalid s hk]
    exact ⟨rfl, rfl⟩

end Sys2Proof.Machine
end

section
/-! SUPPORT. The clear of the display family (spec 42_display.md R170): the frame of a write of the framebuffer, the
host's read of a dark screen. -/

namespace Sys2Proof.Machine

/-- A write of the framebuffer changes FB alone (10_state.md R31). -/
theorem setFb_frame (s : State) (fb : Screen) :
    (s.setFb fb).pc = s.pc ∧ (s.setFb fb).i = s.i ∧ (s.setFb fb).draws = s.draws ∧ RegsKept s (s.setFb fb) ∧
      StackKept s (s.setFb fb) ∧ SystemKept s (s.setFb fb) :=
  ⟨rfl, rfl, rfl, fun _ => rfl, ⟨rfl, fun _ => rfl⟩, fun _ => rfl, ⟨rfl, rfl, fun _ => rfl⟩, rfl, rfl, rfl⟩

/-- FB_READ gives one element per position, so it is all zeros when no pixel is on (43_host_interface.md R196). -/
theorem fbRead_eq_replicate_false {s : State} (h : ∀ x y, pixel s.fb x y = false) :
    fbRead s = List.replicate 2048 false := by
  have hoff : fbBit s.fb = fun _ => false := funext fun p => h (p % 64) (p / 64)
  rw [fbRead, hoff, List.map_const', List.length_range]

theorem exec_cls (s : State) : exec .cls s = .next (s.setFb blankScreen) := rfl

/-- Settles O36: the answer is one write of the framebuffer, whose frame is `setFb_frame`, with the blank screen. -/
theorem clsTurnsEveryPixelOff : Obligations.ClsTurnsEveryPixelOff :=
  ⟨encodedAs_cls, fun s =>
    ⟨_, exec_cls s, fun x y _ _ => pixel_blankScreen x y, fbRead_eq_replicate_false pixel_blankScreen,
      setFb_frame s blankScreen⟩⟩

end Sys2Proof.Machine
end

section
/-! SUPPORT. The host's read of the framebuffer (spec 43_host_interface.md R196): its length and its row-major order. -/

namespace Sys2Proof.Machine

@[simp] theorem length_fbRead (s : State) : (fbRead s).length = 2048 := by
  rw [fbRead, List.length_map, List.length_range]

/-- The bit at position x + 64·y belongs to column x and row y: x is below the width (10_state.md R31). -/
theorem fbBit_rowMajor (fb : Screen) {x : Nat} (y : Nat) (hx : x < 64) : fbBit fb (x + 64 * y) = pixel fb x y := by
  have hcol : (x + 64 * y) % 64 = x := by omega
  have hrow : (x + 64 * y) / 64 = y := by omega
  rw [fbBit, hcol, hrow]

theorem getElem?_fbRead (s : State) {p : Nat} (hp : p < 2048) : (fbRead s)[p]? = some (fbBit s.fb p) := by
  rw [fbRead, List.getElem?_map, List.getElem?_range hp, Option.map_some]

/-- Settles O57: the position x + 64·y of a pixel on the screen is below 2048, and its bit is that pixel. -/
theorem fbReadIsRowMajor : Obligations.FbReadIsRowMajor := by
  refine fun s => ⟨perform_fbRead s, length_fbRead s, fun x y hx hy => ?_⟩
  have hp : x + 64 * y < 2048 := by omega
  rw [getElem?_fbRead s hp, fbBit_rowMajor s.fb y hx]

end Sys2Proof.Machine
end

section
/-! SUPPORT. The round trips of the decoder and the encoder, and the words that are no instruction (spec 30_encoding.md
sections 4 to 6). -/

namespace Sys2Proof

/-- The instruction of `i`'s row whose operands are the fields of a word (R74, R80). -/
def Instr.withFieldsOf (op : Word) : Instr → Instr
  | .cls => .cls
  | .ret => .ret
  | .jp _ => .jp (fieldNNN op)
  | .call _ => .call (fieldNNN op)
  | .seImm _ _ => .seImm (fieldX op) (fieldNN op)
  | .sneImm _ _ => .sneImm (fieldX op) (fieldNN op)
  | .seReg _ _ => .seReg (fieldX op) (fieldY op)
  | .ldImm _ _ => .ldImm (fieldX op) (fieldNN op)
  | .addImm _ _ => .addImm (fieldX op) (fieldNN op)
  | .ldReg _ _ => .ldReg (fieldX op) (fieldY op)
  | .orReg _ _ => .orReg (fieldX op) (fieldY op)
  | .andReg _ _ => .andReg (fieldX op) (fieldY op)
  | .xorReg _ _ => .xorReg (fieldX op) (fieldY op)
  | .addReg _ _ => .addReg (fieldX op) (fieldY op)
  | .subReg _ _ => .subReg (fieldX op) (fieldY op)
  | .shrReg _ _ => .shrReg (fieldX op) (fieldY op)
  | .subnReg _ _ => .subnReg (fieldX op) (fieldY op)
  | .shlReg _ _ => .shlReg (fieldX op) (fieldY op)
  | .sneReg _ _ => .sneReg (fieldX op) (fieldY op)
  | .ldI _ => .ldI (fieldNNN op)
  | .jpV0 _ => .jpV0 (fieldNNN op)
  | .rnd _ _ => .rnd (fieldX op) (fieldNN op)
  | .drw _ _ _ => .drw (fieldX op) (fieldY op) (fieldN op).toNat
  | .skp _ => .skp (fieldX op)
  | .sknp _ => .sknp (fieldX op)

open Machine in
/-- The word of a row decodes to the row's instruction with the word's own fields. -/
theorem encodedAs_withFieldsOf (i : Instr) : EncodedAs i.row.1 i.row.2 (fun op => i.withFieldsOf op) := by
  cases i
  exacts [encodedAs_cls, encodedAs_ret, encodedAs_jp, encodedAs_call, encodedAs_seImm, encodedAs_sneImm,
    encodedAs_seReg, encodedAs_ldImm, encodedAs_addImm, encodedAs_ldReg, encodedAs_orReg, encodedAs_andReg,
    encodedAs_xorReg, encodedAs_addReg, encodedAs_subReg, encodedAs_shrReg, encodedAs_subnReg, encodedAs_shlReg,
    encodedAs_sneReg, encodedAs_ldI, encodedAs_jpV0, encodedAs_rnd, encodedAs_drw, encodedAs_skp, encodedAs_sknp]

/-- An instruction's word has its row's pattern under its row's mask (R80). -/
theorem encode_and_row (i : Instr) : encode i &&& i.row.2 = i.row.1 := by
  open Laws.FixedBits in
  cases i
  exacts [cls, ret, jp _, call _, seImm _ _, sneImm _ _, seReg _ _, ldImm _ _, addImm _ _, ldReg _ _, orReg _ _,
    andReg _ _, xorReg _ _, addReg _ _, subReg _ _, shrReg _ _, subnReg _ _, shlReg _ _, sneReg _ _, ldI _, jpV0 _,
    rnd _ _, drw _ _ _, skp _, sknp _]

/-- The fields of an instruction's word are its operands; N holds the row count because it is below 16. -/
theorem withFieldsOf_encode {i : Instr} (hwf : i.wellFormed = true) : i.withFieldsOf (encode i) = i := by
  cases i with
  | drw x y n =>
    have hn : n < 16 := of_decide_eq_true hwf
    simp only [encode, Instr.withFieldsOf, fieldX_wordXYN, fieldY_wordXYN, fieldN_wordXYN, BitVec.toNat_ofNat,
      Nat.mod_eq_of_lt hn]
  | _ => simp only [encode, Instr.withFieldsOf, fieldX_wordXYN, fieldY_wordXYN, fieldX_wordXNN, fieldNN_wordXNN,
      fieldNNN_wordNNN]

theorem wellFormed_withFieldsOf (op : Word) (i : Instr) : (i.withFieldsOf op).wellFormed = true := by
  cases i with
  | drw x y n => exact decide_eq_true (fieldN op).isLt
  | _ => rfl

/-! Under each mask, what it leaves of the word is the operands' fields (R70). -/

theorem wordNNN_of_and_F000 {op : Word} {f : BitVec 4} (h : op &&& 0xF000 = wordNNN f 0) :
    wordNNN f (fieldNNN op) = op := by
  rw [← (and_F000_iff op f).mp h, wordNNN_fields]

theorem wordXNN_of_and_F000 {op : Word} {f : BitVec 4} (h : op &&& 0xF000 = wordNNN f 0) :
    wordXNN f (fieldX op) (fieldNN op) = op := by
  rw [← (and_F000_iff op f).mp h, wordXNN_fields]

theorem wordXYN_of_and_F000 {op : Word} {f : BitVec 4} (h : op &&& 0xF000 = wordNNN f 0) :
    wordXYN f (fieldX op) (fieldY op) (BitVec.ofNat 4 (fieldN op).toNat) = op := by
  rw [← (and_F000_iff op f).mp h, BitVec.ofNat_toNat, BitVec.setWidth_eq, wordXYN_fields]

theorem wordXYN_of_and_F00F {op : Word} {f n : BitVec 4} (h : op &&& 0xF00F = wordXYN f 0 0 n) :
    wordXYN f (fieldX op) (fieldY op) n = op := by
  obtain ⟨hF, hN⟩ := (and_F00F_iff op f n).mp h
  rw [← hF, ← hN, wordXYN_fields]

theorem wordXNN_of_and_F0FF {op : Word} {f : BitVec 4} {nn : Byte} (h : op &&& 0xF0FF = wordXNN f 0 nn) :
    wordXNN f (fieldX op) nn = op := by
  obtain ⟨hF, hNN⟩ := (and_F0FF_iff op f nn).mp h
  rw [← hF, ← hNN, wordXNN_fields]

theorem eq_of_and_FFFF {op word : Word} (h : op &&& 0xFFFF = word) : word = op :=
  h.symm.trans BitVec.and_allOnes

/-- A word that matches a row is the encoding of the row's instruction with the word's own fields. -/
theorem encode_withFieldsOf {op : Word} {i : Instr} (h : op &&& i.row.2 = i.row.1) : encode (i.withFieldsOf op) = op := by
  cases i with
  | cls | ret => exact eq_of_and_FFFF h
  | jp | call | ldI | jpV0 => exact wordNNN_of_and_F000 h
  | seImm | sneImm | ldImm | addImm | rnd => exact wordXNN_of_and_F000 h
  | drw => exact wordXYN_of_and_F000 h
  | seReg | sneReg | ldReg | orReg | andReg | xorReg | addReg | subReg | shrReg | subnReg | shlReg =>
    exact wordXYN_of_and_F00F h
  | skp | sknp => exact wordXNN_of_and_F0FF h

/-! ### The round trips -/

theorem decode_of_and_row {op : Word} {i : Instr} (h : op &&& i.row.2 = i.row.1) :
    decode op = .instr (i.withFieldsOf op) := (encodedAs_withFieldsOf i op).mpr h

theorem decode_encode {i : Instr} (hwf : i.wellFormed = true) : decode (encode i) = .instr i := by
  rw [decode_of_and_row (encode_and_row i), withFieldsOf_encode hwf]

/-- A word that decodes to an instruction holds that instruction's operands in its fields. -/
theorem withFieldsOf_of_decode {op : Word} {i : Instr} (h : decode op = .instr i) : i.withFieldsOf op = i := by
  have hrow := decode_of_and_row (and_row_of_decode h)
  exact Decoded.instr.inj (hrow.symm.trans h)

/-- Settles O1: an instruction's word matches the instruction's row, so it decodes to that row's instruction with the
word's fields, which are the operands. -/
theorem decodeOfEncodeGivesInstructionBack : Obligations.DecodeOfEncodeGivesInstructionBack :=
  fun _ hwf => decode_encode hwf

/-- Settles O2: a word matches the row of the instruction it decodes to, so its fields and that row's fixed bits are the
whole word. -/
theorem encodeOfDecodeGivesWordBack : Obligations.EncodeOfDecodeGivesWordBack := by
  intro op i h
  have hi := withFieldsOf_of_decode h
  constructor
  · rw [← hi, encode_withFieldsOf (and_row_of_decode h)]
  · rw [← hi, wellFormed_withFieldsOf]

/-! ### The words that are no instruction -/

theorem decodeFamily0_ne_vacantMemory (op : Word) : decodeFamily0 op ≠ .vacantMemory := by
  unfold decodeFamily0
  split_ifs <;> nofun

theorem decodeFamily8_ne_vacantMemory (op : Word) : decodeFamily8 op ≠ .vacantMemory := by
  unfold decodeFamily8
  split <;> nofun

theorem decodeFamilyE_ne_vacantMemory (op : Word) : decodeFamilyE op ≠ .vacantMemory := by
  unfold decodeFamilyE
  split_ifs <;> nofun

/-- Only the null word is VacantMemory: no family answers it (R84). -/
theorem decode_eq_vacantMemory_iff {op : Word} : decode op = .vacantMemory ↔ op = 0 := by
  constructor
  · intro h
    unfold decode at h
    split at h
    · assumption
    split at h
    case h_1 => exact absurd h (decodeFamily0_ne_vacantMemory op)
    case h_9 => exact absurd h (decodeFamily8_ne_vacantMemory op)
    case h_15 => exact absurd h (decodeFamilyE_ne_vacantMemory op)
    case h_6 | h_10 => split at h <;> cases h
    all_goals cases h
  · rintro rfl
    rfl

/-- A word matches a row of the opcode map exactly when it decodes to an instruction (R80). -/
theorem exists_row_iff_exists_instr (op : Word) :
    (∃ r ∈ opcodeTable, op &&& r.mask = r.pattern) ↔ ∃ i, decode op = .instr i := by
  obtain ⟨-, hrow, -⟩ := Machine.opcodeMapDecidesEveryInstruction
  constructor
  · rintro ⟨r, hr, hop⟩
    obtain ⟨i, hi, -⟩ := (hrow r hr op).mp hop
    exact ⟨i, hi⟩
  · rintro ⟨i, hi⟩
    exact ⟨i.opcodeRow, opcodeRow_mem_opcodeTable i, and_row_of_decode hi⟩

/-- A word is unknown exactly when it is neither null nor of a row (R85, R87). -/
theorem decode_eq_unknownInstruction_iff {op : Word} :
    decode op = .unknownInstruction ↔ op ≠ 0 ∧ ∀ r ∈ opcodeTable, op &&& r.mask ≠ r.pattern := by
  have hrow := not_congr (exists_row_iff_exists_instr op)
  push Not at hrow
  rw [hrow, ne_eq, ← decode_eq_vacantMemory_iff]
  cases decode op <;> simp

/-- Family 0xF has no row (R86). -/
theorem decode_of_fieldF_eq_F {op : Word} (hF : fieldF op = 0xF) : decode op = .unknownInstruction := by
  have h0 : op ≠ 0#16 := ne_zero_of_fieldF (by decide) hF
  simp [decode, h0, hF]

/-- Settles O4: no family answers VacantMemory, and what is neither null nor of a row is the third kind of word. -/
theorem nullAndUnknownWords : Obligations.NullAndUnknownWords := by
  refine ⟨fun _ => decode_eq_vacantMemory_iff, fun _ => decode_eq_unknownInstruction_iff, fun op hop => ?_⟩
  refine decode_of_fieldF_eq_F (BitVec.eq_of_toNat_eq ?_)
  have hlt := op.isLt
  rw [toNat_fieldF, show (0xF : BitVec 4).toNat = 15 from rfl]
  omega

/-- Settles O7: each word is evaluated. -/
theorem sampleWordsDecode : Obligations.SampleWordsDecode := by
  unfold Obligations.SampleWordsDecode
  decide

end Sys2Proof
end

section
/-! SUPPORT. How many words of each family are unknown (spec 30_encoding.md R82). -/

namespace Sys2Proof

/-- A word's number in its family. -/
def familyWord (f k : Nat) : Word := BitVec.ofNat 16 (4096 * f + k)

section FamilyWord

variable {f k : Nat} (hf : f < 16) (hk : k < 4096)
include hf hk

theorem toNat_familyWord : (familyWord f k).toNat = 4096 * f + k := by
  rw [familyWord, BitVec.toNat_ofNat]
  omega

theorem fieldF_familyWord : fieldF (familyWord f k) = BitVec.ofNat 4 f := by
  apply eq_ofNat_of_toNat
  rw [toNat_fieldF, toNat_familyWord hf hk]
  omega

theorem toNat_fieldN_familyWord : (fieldN (familyWord f k)).toNat = k % 16 := by
  rw [toNat_fieldN, toNat_familyWord hf hk]
  omega

theorem toNat_fieldNN_familyWord : (fieldNN (familyWord f k)).toNat = k % 256 := by
  rw [toNat_fieldNN, toNat_familyWord hf hk]
  omega

end FamilyWord

/-- A property of the remainder modulo `m` holds in each of `n` blocks as often as in the first. -/
theorem countP_range_mul_mod (q : Nat → Bool) {m : Nat} (n : Nat) :
    (List.range (m * n)).countP (fun k => q (k % m)) = n * (List.range m).countP q := by
  induction n with
  | zero => simp
  | succ n ih =>
    have hblock : (List.range m).countP (fun k => q ((m * n + k) % m)) = (List.range m).countP q :=
      List.countP_congr fun k hk => by
        rw [Nat.mul_add_mod, Nat.mod_eq_of_lt (List.mem_range.mp hk)]
    rw [Nat.mul_succ, List.range_add, List.countP_append, ih, List.countP_map, Nat.succ_mul, ← hblock]
    rfl

/-- How many words of a family are unknown. -/
def unknownCount (f : Nat) : Nat :=
  (List.range 4096).countP fun k => decide (decode (familyWord f k) = .unknownInstruction)

theorem unknownCount_eq_countP {f : Nat} {q : Nat → Bool}
    (h : ∀ k, k < 4096 → (decode (familyWord f k) = .unknownInstruction ↔ q k = true)) :
    unknownCount f = (List.range 4096).countP q :=
  List.countP_congr fun k hk => by rw [decide_eq_true_iff, h k (List.mem_range.mp hk)]

/-- All numbers below `n` but those of a list. -/
theorem countP_range_notMem {l : List Nat} {n : Nat} (hl : l.Nodup) (hlt : ∀ k ∈ l, k < n) :
    (List.range n).countP (fun k => decide (k ∉ l)) = n - l.length := by
  have hmem : ((List.range n).filter fun k => decide (k ∈ l)).Perm l :=
    (List.perm_ext_iff_of_nodup (List.nodup_range.filter _) hl).mpr fun k => by
      simpa using hlt k
  have hsum := List.length_eq_countP_add_countP (fun k => decide (k ∈ l)) (l := List.range n)
  rw [List.length_range, List.countP_eq_length_filter, hmem.length_eq] at hsum
  simp only [decide_eq_true_iff] at hsum
  omega

/-- A family whose words are unknown unless N is one of a list. -/
theorem unknownCount_of_fieldN {f : Nat} {l : List Nat} (hf : f < 16) (hl : l.Nodup) (hlt : ∀ k ∈ l, k < 16)
    (h : ∀ op, fieldF op = BitVec.ofNat 4 f → (decode op = .unknownInstruction ↔ (fieldN op).toNat ∉ l)) :
    unknownCount f = 256 * (16 - l.length) := by
  rw [← countP_range_notMem hl hlt, ← countP_range_mul_mod _ 256]
  refine unknownCount_eq_countP fun k hk => ?_
  rw [h _ (fieldF_familyWord hf hk), toNat_fieldN_familyWord hf hk, decide_eq_true_iff]

/-- A family whose words are unknown unless NN is one of a list. -/
theorem unknownCount_of_fieldNN {f : Nat} {l : List Nat} (hf : f < 16) (hl : l.Nodup) (hlt : ∀ k ∈ l, k < 256)
    (h : ∀ op, fieldF op = BitVec.ofNat 4 f → (decode op = .unknownInstruction ↔ (fieldNN op).toNat ∉ l)) :
    unknownCount f = 16 * (256 - l.length) := by
  rw [← countP_range_notMem hl hlt, ← countP_range_mul_mod _ 16]
  refine unknownCount_eq_countP fun k hk => ?_
  rw [h _ (fieldF_familyWord hf hk), toNat_fieldNN_familyWord hf hk, decide_eq_true_iff]

open Machine in
/-- A family with one row, whose mask is the family, has no unknown word. -/
theorem unknownCount_of_encodedAs {f : Nat} {g : Word → Instr} (hf : f < 16)
    (h : EncodedAs (wordNNN (BitVec.ofNat 4 f) 0) 0xF000 g) : unknownCount f = 0 :=
  unknownCount_of_fieldN (l := List.range 16) hf List.nodup_range (fun _ => List.mem_range.mp) fun op hF => by
    have hN := (fieldN op).isLt
    rw [(h op).mpr ((and_F000_iff op _).mpr hF)]
    simpa using hN

/-! ### The families that have unknown words -/

/-- Family 0x0 is matched on the whole word (R75, R85). -/
theorem decode_eq_unknownInstruction_iff_of_family0 {op : Word} (hF : fieldF op = 0) :
    decode op = .unknownInstruction ↔ op.toNat ∉ [0, 0xE0, 0xEE] := by
  have hdec : decode op = if op = 0#16 then .vacantMemory else decodeFamily0 op := by simp [decode, hF]
  rw [hdec]
  unfold decodeFamily0
  split_ifs with h0 hcls hret
  · simp [h0]
  · simp [hcls]
  · simp [hret]
  · simp only [← BitVec.toNat_inj] at h0 hcls hret
    simp_all

/-- In families 0x5 and 0x9 exactly the words with a nonzero N are unknown (R85). -/
theorem decode_eq_unknownInstruction_iff_fieldN {op : Word} (hF : fieldF op = 5 ∨ fieldF op = 9) :
    decode op = .unknownInstruction ↔ fieldN op ≠ 0 := by
  rcases hF with hF | hF
  all_goals
    have h0 : op ≠ 0#16 := ne_zero_of_fieldF (by decide) hF
    by_cases hN : fieldN op = 0#4 <;> simp [decode, h0, hF, hN]

theorem decode_eq_unknownInstruction_iff_of_family8 {op : Word} (hF : fieldF op = 8) :
    decode op = .unknownInstruction ↔ (fieldN op).toNat ∉ [0, 1, 2, 3, 4, 5, 6, 7, 0xE] := by
  have h0 : op ≠ 0#16 := ne_zero_of_fieldF (by decide) hF
  have hdec : decode op = decodeFamily8 op := by simp [decode, h0, hF]
  rw [hdec]
  unfold decodeFamily8
  split
  case h_10 => simp_all
  all_goals
    rename_i hN
    simp [hN]

theorem decode_eq_unknownInstruction_iff_of_familyE {op : Word} (hF : fieldF op = 0xE) :
    decode op = .unknownInstruction ↔ (fieldNN op).toNat ∉ [0x9E, 0xA1] := by
  have h0 : op ≠ 0#16 := ne_zero_of_fieldF (by decide) hF
  have hdec : decode op = decodeFamilyE op := by simp [decode, h0, hF]
  rw [hdec]
  unfold decodeFamilyE
  split_ifs with hskp hsknp
  · simp [hskp]
  · simp [hsknp]
  · simp only [← BitVec.toNat_inj] at hskp hsknp
    simp_all

theorem unknownCount_family0 : unknownCount 0 = 4093 := by
  refine Eq.trans (unknownCount_eq_countP fun k hk => ?_)
    (countP_range_notMem (l := [0, 0xE0, 0xEE]) (by decide) (by decide))
  rw [decode_eq_unknownInstruction_iff_of_family0 (fieldF_familyWord (by decide) hk),
    toNat_familyWord (by decide) hk, decide_eq_true_iff, Nat.mul_zero, Nat.zero_add]

theorem unknownCount_of_family5_or_9 {f : Nat} (hf : f = 5 ∨ f = 9) : unknownCount f = 3840 :=
  unknownCount_of_fieldN (l := [0]) (by omega) (by decide) (by decide) fun op hF => by
    have h59 : fieldF op = 5 ∨ fieldF op = 9 := by
      rcases hf with rfl | rfl
      · exact .inl hF
      · exact .inr hF
    rw [decode_eq_unknownInstruction_iff_fieldN h59, List.mem_singleton, ne_eq, ← BitVec.toNat_inj]
    rfl

theorem unknownCount_family8 : unknownCount 8 = 1792 :=
  unknownCount_of_fieldN (by decide) (by decide) (by decide) fun _ => decode_eq_unknownInstruction_iff_of_family8

theorem unknownCount_familyE : unknownCount 0xE = 4064 :=
  unknownCount_of_fieldNN (by decide) (by decide) (by decide) fun _ => decode_eq_unknownInstruction_iff_of_familyE

theorem unknownCount_familyF : unknownCount 0xF = 4096 :=
  unknownCount_of_fieldN (l := []) (by decide) (by decide) (by decide) fun _ hF =>
    iff_of_true (decode_of_fieldF_eq_F hF) List.not_mem_nil

open Machine in
/-- Settles O5: a family with one row has no unknown word; of the others, what is unknown depends on N or on NN alone,
and in family 0x0 on the whole word. -/
theorem unknownWordsPerFamily : Obligations.UnknownWordsPerFamily := by
  intro f
  change unknownCount f.val = _
  have h16 : ∀ k : Fin 16, k.val < 16 := fun k => k.isLt
  fin_cases f
  exacts [unknownCount_family0, unknownCount_of_encodedAs (h16 1) encodedAs_jp,
    unknownCount_of_encodedAs (h16 2) encodedAs_call, unknownCount_of_encodedAs (h16 3) encodedAs_seImm,
    unknownCount_of_encodedAs (h16 4) encodedAs_sneImm, unknownCount_of_family5_or_9 (.inl rfl),
    unknownCount_of_encodedAs (h16 6) encodedAs_ldImm, unknownCount_of_encodedAs (h16 7) encodedAs_addImm,
    unknownCount_family8, unknownCount_of_family5_or_9 (.inr rfl), unknownCount_of_encodedAs (h16 0xA) encodedAs_ldI,
    unknownCount_of_encodedAs (h16 0xB) encodedAs_jpV0, unknownCount_of_encodedAs (h16 0xC) encodedAs_rnd,
    unknownCount_of_encodedAs (h16 0xD) encodedAs_drw, unknownCount_familyE, unknownCount_familyF]

end Sys2Proof
end

section
/-! SUPPORT. Everything an instruction can answer, for any parameters: one constructor per instruction, or per branch of
the three that branch, and the proof that the execute phase answers exactly this. -/

namespace Sys2Proof.Machine

/-- `Answers p s i t`: under the parameters `p` the instruction `i` takes the state `s`, whose PC is already advanced, to
`t` (spec 40_alu.md, 41_control_flow.md, 42_display.md). -/
inductive Answers (p : Params) (s : State) : Instr → State → Prop where
  | cls : Answers p s .cls (s.setFb blankScreen)
  | retPop (hsp : 0 < s.sp) : Answers p s .ret s.popPc
  | retFallback (hsp : s.sp = 0) (hp : p.emptyRetPolicy = .fallbackZero) : Answers p s .ret (s.setPc 0)
  | retUnderflow (hsp : s.sp = 0) (hp : p.emptyRetPolicy = .fault) :
      Answers p s .ret (raise (.stackUnderflow s.instrAddr (encode .ret)) s)
  | jp (nnn : BitVec 12) : Answers p s (.jp nnn) (s.setPc (addrOperand nnn))
  | callPush (nnn : BitVec 12) (hsp : s.sp < 16) : Answers p s (.call nnn) ((s.push s.pc).setPc (addrOperand nnn))
  | callOverflow (nnn : BitVec 12) (hsp : 16 ≤ s.sp) :
      Answers p s (.call nnn) (raise (.stackOverflow s.instrAddr (encode (.call nnn))) s)
  | seImm (x : Reg) (nn : Byte) :
      Answers p s (.seImm x nn) (s.setPc (if s.reg x == nn then s.pc + 2 else s.pc))
  | sneImm (x : Reg) (nn : Byte) :
      Answers p s (.sneImm x nn) (s.setPc (if s.reg x != nn then s.pc + 2 else s.pc))
  | seReg (x y : Reg) : Answers p s (.seReg x y) (s.setPc (if s.reg x == s.reg y then s.pc + 2 else s.pc))
  | ldImm (x : Reg) (nn : Byte) : Answers p s (.ldImm x nn) (s.setReg x nn)
  | addImm (x : Reg) (nn : Byte) : Answers p s (.addImm x nn) (s.setReg x (s.reg x + nn))
  | ldReg (x y : Reg) : Answers p s (.ldReg x y) (s.setReg x (s.reg y))
  | orReg (x y : Reg) : Answers p s (.orReg x y) (s.setReg x (s.reg x ||| s.reg y))
  | andReg (x y : Reg) : Answers p s (.andReg x y) (s.setReg x (s.reg x &&& s.reg y))
  | xorReg (x y : Reg) : Answers p s (.xorReg x y) (s.setReg x (s.reg x ^^^ s.reg y))
  | addReg (x y : Reg) :
      Answers p s (.addReg x y) (s.setRegFlag x (s.reg x + s.reg y) (carryFlag (s.reg x) (s.reg y)))
  | subReg (x y : Reg) :
      Answers p s (.subReg x y) (s.setRegFlag x (s.reg x - s.reg y) (notBorrowFlag (s.reg x) (s.reg y)))
  | shrReg (x y : Reg) : Answers p s (.shrReg x y) (s.setRegFlag x (s.reg x >>> 1) (shiftRightFlag (s.reg x)))
  | subnReg (x y : Reg) :
      Answers p s (.subnReg x y) (s.setRegFlag x (s.reg y - s.reg x) (notBorrowFlag (s.reg y) (s.reg x)))
  | shlReg (x y : Reg) : Answers p s (.shlReg x y) (s.setRegFlag x (s.reg x <<< 1) (shiftLeftFlag (s.reg x)))
  | sneReg (x y : Reg) : Answers p s (.sneReg x y) (s.setPc (if s.reg x != s.reg y then s.pc + 2 else s.pc))
  | ldI (nnn : BitVec 12) : Answers p s (.ldI nnn) (s.setI (addrOperand nnn))
  | jpV0 (nnn : BitVec 12) : Answers p s (.jpV0 nnn) (s.setPc (addrOperand nnn + zext16 (s.reg 0)))
  | rnd (x : Reg) (nn : Byte) : Answers p s (.rnd x nn) (s.countDraw.setReg x (p.rand s.draws &&& nn))
  | drwInside (x y : Reg) (n : Nat) (hrows : ∀ r, r < n → s.i.toNat + r ≤ 0xFFF) :
      Answers p s (.drw x y n)
        (s.withDrawn (drawSprite s.fb (startColumn s x) (startRow s y) (spriteRows s n)))
  | drwFault (x y : Reg) (n r : Nat) (hr : r < n) (hout : 0xFFF < s.i.toNat + r)
      (hin : ∀ q, q < r → s.i.toNat + q ≤ 0xFFF) :
      Answers p s (.drw x y n)
        (raise (.drawAddressFault s.instrAddr (encode (.drw x y n)) (s.i + BitVec.ofNat 16 r)) s)
  | skp (x : Reg) : Answers p s (.skp x) (s.setPc (if keyFlag s (s.reg x) == some true then s.pc + 2 else s.pc))
  | sknp (x : Reg) : Answers p s (.sknp x) (s.setPc (if keyFlag s (s.reg x) == some false then s.pc + 2 else s.pc))

/-- The first row above 0xFFF lies at 0x1000, unless it is the first row of all. -/
theorem add_row_eq {a : Word} {r : Nat} (ha : a.toNat ≤ 0xFFF) (hout : 0xFFF < a.toNat + r)
    (hin : ∀ q, q < r → a.toNat + q ≤ 0xFFF) : a + BitVec.ofNat 16 r = 0x1000 := by
  have hlast := hin (r - 1) (by omega)
  apply BitVec.eq_of_toNat_eq
  rw [BitVec.toNat_add, BitVec.toNat_ofNat, show (0x1000 : Word).toNat = 0x1000 from rfl]
  omega

/-- The sprite read answers the address of the first row above 0xFFF (spec 42_display.md R172). -/
theorem readSprite_eq_error (m : Memory) {a : Word} {n r : Nat} (hr : r < n) (hout : 0xFFF < a.toNat + r)
    (hin : ∀ q, q < r → a.toNat + q ≤ 0xFFF) : readSprite m a n = .error (a + BitVec.ofNat 16 r) := by
  rcases Nat.eq_zero_or_pos r with rfl | hpos
  · rw [readSprite_error_first m hr hout, BitVec.add_zero]
  · have ha := hin 0 hpos
    rw [readSprite_error m n a (by omega) (by omega), add_row_eq ha hout hin]

variable {p : Params} {s t : State} {i : Instr}

/-- Each answer is the execute phase's. -/
theorem Answers.execUnder_eq (h : Answers p s i t) : execUnder p i s = .next t := by
  cases h with
  | retPop hsp => exact congrArg Host.Outcome.next (retUnder_pop _ hsp)
  | retFallback hsp hp => rw [execUnder, hp, retUnder_fallbackZero hsp]
  | retUnderflow hsp hp => rw [execUnder, hp, retUnder_fault hsp]
  | callPush nnn hsp => exact execCall_push nnn hsp
  | callOverflow nnn hsp => exact execCall_overflow nnn hsp
  | shrReg x y => exact congrArg Host.Outcome.next (shrUnder_eq _ x y s)
  | shlReg x y => exact congrArg Host.Outcome.next (shlUnder_eq _ x y s)
  | jpV0 nnn => exact congrArg Host.Outcome.next (jpV0Under_eq _ nnn s)
  | seImm | sneImm | seReg | sneReg | skp | sknp => exact congrArg Host.Outcome.next (State.skipIf_eq s _)
  | drwInside x y n hrows => exact execDrw_inside x y hrows
  | drwFault x y n r hr hout hin => exact execDrw_outside x y (readSprite_eq_error s.mem hr hout hin)
  | _ => rfl

/-- 00EE answers by the stack and, if that is empty, by the policy. -/
theorem exists_answers_ret (p : Params) (s : State) : ∃ t, Answers p s .ret t := by
  rcases Nat.eq_zero_or_pos s.sp with hsp | hsp
  · cases hp : p.emptyRetPolicy with
    | fallbackZero => exact ⟨_, .retFallback hsp hp⟩
    | fault => exact ⟨_, .retUnderflow hsp hp⟩
  · exact ⟨_, .retPop hsp⟩

theorem exists_answers_call (p : Params) (nnn : BitVec 12) (s : State) : ∃ t, Answers p s (.call nnn) t := by
  rcases Nat.lt_or_ge s.sp 16 with hsp | hsp
  · exact ⟨_, .callPush nnn hsp⟩
  · exact ⟨_, .callOverflow nnn hsp⟩

/-- DXYN answers a draw, or the fault of the first of its rows above 0xFFF. -/
theorem exists_answers_drw (p : Params) (x y : Reg) (n : Nat) (s : State) : ∃ t, Answers p s (.drw x y n) t := by
  by_cases hout : ∃ r, r < n ∧ 0xFFF < s.i.toNat + r
  · obtain ⟨hr, hrow⟩ := Nat.find_spec hout
    refine ⟨_, .drwFault x y n _ hr hrow fun q hq => ?_⟩
    have hnot := Nat.find_min hout hq
    omega
  · refine ⟨_, .drwInside x y n fun r hr => ?_⟩
    by_contra hrow
    exact hout ⟨r, hr, by omega⟩

/-- Every instruction answers a next state from every state. -/
theorem exists_answers (p : Params) (i : Instr) (s : State) : ∃ t, Answers p s i t := by
  cases i with
  | ret => exact exists_answers_ret p s
  | call nnn => exact exists_answers_call p nnn s
  | drw x y n => exact exists_answers_drw p x y n s
  | _ => exact ⟨_, by constructor⟩

/-- The execute phase answers `t` exactly if `Answers` says so. -/
theorem execUnder_eq_next_iff : execUnder p i s = .next t ↔ Answers p s i t := by
  constructor
  · intro h
    obtain ⟨u, hu⟩ := exists_answers p i s
    obtain rfl : u = t := Host.Outcome.next.inj (hu.execUnder_eq.symm.trans h)
    exact hu
  · exact Answers.execUnder_eq

/-- On this hardware the parameters are `Config.params`. -/
theorem exec_eq_next_iff : exec i s = .next t ↔ Answers Config.params s i t := by
  rw [← execUnder_params, execUnder_eq_next_iff]

end Sys2Proof.Machine
end

section
/-! SUPPORT. Everything one STEP can answer, for any parameters (spec 30_encoding.md R76), and the errors a STEP latches
(60_exceptions.md sections 1 to 3). -/

namespace Sys2Proof.Machine

/-- The state in which the execute phase runs: LOADABLE = 0 and PC advanced (R72, R76). -/
def State.fetched (s : State) : State := s.closeLoad.advancePc

/-- `StepsTo p s t`: under the parameters `p` a STEP takes `s` to `t`. The two fetch errors and the two decode errors
record the instruction's own address. -/
inductive StepsTo (p : Params) (s : State) : State → Prop where
  | latched (hf : s.fault ≠ 0) : StepsTo p s s
  | fetchAbove (hf : s.fault = 0) (hpc : 0xFFF < s.pc.toNat) :
      StepsTo p s (raise (.fetchAddressFault s.pc s.pc) s.closeLoad)
  | fetchEdge (hf : s.fault = 0) (hpc : s.pc.toNat = 0xFFF) :
      StepsTo p s (raise (.fetchAddressFault s.pc 0x1000) s.closeLoad)
  | vacant (hf : s.fault = 0) (hpc : s.pc.toNat ≤ 0xFFE) (hd : decode s.wordAtPc = .vacantMemory) :
      StepsTo p s (raise (.vacantMemory s.pc s.wordAtPc) s.fetched)
  | unknown (hf : s.fault = 0) (hpc : s.pc.toNat ≤ 0xFFE) (hd : decode s.wordAtPc = .unknownInstruction) :
      StepsTo p s (raise (.unknownInstruction s.pc s.wordAtPc) s.fetched)
  | instr {i : Instr} {t : State} (hf : s.fault = 0) (hpc : s.pc.toNat ≤ 0xFFE) (hd : decode s.wordAtPc = .instr i)
      (h : Answers p s.fetched i t) : StepsTo p s t

variable {p : Params} {s t : State} {i : Instr} {op : Word}

@[simp] theorem State.fetched_instrAddr (s : State) : s.fetched.instrAddr = s.pc := instrAddr_advancePc s.closeLoad

theorem pc_add_one_of_edge (h : s.pc.toNat = 0xFFF) : s.pc + 1 = 0x1000 :=
  BitVec.eq_of_toNat_eq (by rw [toNat_add_one (by omega), h]; rfl)

/-- A fetch that succeeds gives the word at a PC below 0xFFF. -/
theorem fetch_eq_ok_iff : fetch s = .ok op ↔ s.pc.toNat ≤ 0xFFE ∧ s.wordAtPc = op := by
  rcases fetch_cases s with ⟨hpc, h⟩ | ⟨hpc, h⟩ | ⟨hpc, h⟩ <;> rw [h]
  · exact ⟨fun hop => ⟨hpc, Except.ok.inj hop⟩, fun hop => congrArg _ hop.2⟩
  all_goals exact ⟨nofun, fun hop => by omega⟩

theorem fetch_closeLoad_of_le (hpc : s.pc.toNat ≤ 0xFFE) : fetch s.closeLoad = .ok s.wordAtPc :=
  fetch_eq_ok_iff.mpr ⟨hpc, rfl⟩

/-- A STEP whose fetch fails raises the fetch's error at the old PC (R71). -/
theorem stepUnder_of_fetch_error (p : Params) (hf : s.fault = 0) {e : ErrorInfo} (h : fetch s = .error e) :
    stepUnder p s = .next (raise e s.closeLoad) := by
  have hfetch : fetch s.closeLoad = .error e := h
  rw [stepUnder, stepCycle, if_neg (not_not.mpr hf), hfetch]

/-- A STEP runs the instruction it decodes (R76). -/
theorem stepUnder_of_decode (p : Params) (hf : s.fault = 0) (hpc : s.pc.toNat ≤ 0xFFE)
    (hd : decode s.wordAtPc = .instr i) : stepUnder p s = execUnder p i s.fetched := by
  simp only [stepUnder, stepCycle, fetch_closeLoad_of_le hpc, hd, if_neg (not_not.mpr hf)]
  rfl

theorem StepsTo.stepUnder_eq (h : StepsTo p s t) : stepUnder p s = .next t := by
  cases h with
  | latched hf => rw [stepUnder, stepCycle, if_pos hf]
  | fetchAbove hf hpc =>
    rcases fetch_cases s with ⟨hpc', -⟩ | ⟨hpc', -⟩ | ⟨-, h⟩
    · omega
    · omega
    · exact stepUnder_of_fetch_error p hf h
  | fetchEdge hf hpc =>
    rcases fetch_cases s with ⟨hpc', -⟩ | ⟨-, h⟩ | ⟨hpc', -⟩
    · omega
    · rw [pc_add_one_of_edge hpc] at h
      exact stepUnder_of_fetch_error p hf h
    · omega
  | vacant hf hpc hd | unknown hf hpc hd =>
    rw [← s.fetched_instrAddr]
    simp only [stepUnder, stepCycle, fetch_closeLoad_of_le hpc, hd, if_neg (not_not.mpr hf)]
    rfl
  | instr hf hpc hd h => rw [stepUnder_of_decode p hf hpc hd, h.execUnder_eq]

/-- Every STEP answers a next state. -/
theorem exists_stepsTo (p : Params) (s : State) : ∃ t, StepsTo p s t := by
  by_cases hf : s.fault = 0
  · rcases Nat.lt_trichotomy s.pc.toNat 0xFFF with hpc | hpc | hpc
    · have hpc' : s.pc.toNat ≤ 0xFFE := by omega
      cases hd : decode s.wordAtPc with
      | vacantMemory => exact ⟨_, .vacant hf hpc' hd⟩
      | unknownInstruction => exact ⟨_, .unknown hf hpc' hd⟩
      | instr i =>
        obtain ⟨t, ht⟩ := exists_answers p i s.fetched
        exact ⟨t, .instr hf hpc' hd ht⟩
    · exact ⟨_, .fetchEdge hf hpc⟩
    · exact ⟨_, .fetchAbove hf hpc⟩
  · exact ⟨s, .latched hf⟩

/-- A STEP answers `t` exactly if `StepsTo` says so. -/
theorem stepUnder_eq_next_iff : stepUnder p s = .next t ↔ StepsTo p s t := by
  constructor
  · intro h
    obtain ⟨u, hu⟩ := exists_stepsTo p s
    obtain rfl : u = t := Host.Outcome.next.inj (hu.stepUnder_eq.symm.trans h)
    exact hu
  · exact StepsTo.stepUnder_eq

theorem step_eq_next_iff : step s = .next t ↔ StepsTo Config.params s t := by
  rw [← stepUnder_params, stepUnder_eq_next_iff]

/-- Settles O9: the fetch succeeds, and the state the instruction runs in is `State.fetched`. -/
theorem stepRunsDecodedInstruction : Obligations.StepRunsDecodedInstruction := by
  intro s i hf hpc hd
  have hp : ∀ p, stepUnder p s = execUnder p i s.fetched := fun p => stepUnder_of_decode p hf hpc hd
  exact ⟨by rw [← stepUnder_params, hp, execUnder_params]; rfl, hp⟩

/-! ### What an error keeps -/

theorem errorKept_raise (e : ErrorInfo) (s : State) : ErrorKept s (raise e s) :=
  ⟨fun _ => rfl, rfl, rfl, ⟨rfl, fun _ => rfl⟩, fun _ _ => rfl, fun _ => rfl, rfl, rfl, fun _ => rfl⟩

/-- What LOADABLE ← 0 changes is no element that an error keeps. -/
theorem errorKept_raise_closeLoad (e : ErrorInfo) (s : State) : ErrorKept s (raise e s.closeLoad) :=
  errorKept_raise e s.closeLoad

/-- Nor is what the fetch's advance of PC changes. -/
theorem errorKept_raise_fetched (e : ErrorInfo) (s : State) : ErrorKept s (raise e s.fetched) :=
  errorKept_raise e s.fetched

/-- Settles O10: each clause is one constructor of `StepsTo`, whose error keeps all else. -/
theorem errorsBeforeExecution : Obligations.ErrorsBeforeExecution := by
  intro s hf
  refine ⟨fun hpc => ?_, fun hpc => ?_, fun op hop hd => ?_, fun op hop hd => ?_⟩
  · exact ⟨_, step_eq_next_iff.mpr (.fetchAbove hf hpc), errorKept_raise_closeLoad _ s, rfl, rfl, rfl, rfl⟩
  · exact ⟨_, step_eq_next_iff.mpr (.fetchEdge hf hpc), errorKept_raise_closeLoad _ s, rfl, rfl, rfl, rfl⟩
  · obtain ⟨hpc, rfl⟩ := fetch_eq_ok_iff.mp hop
    exact ⟨_, step_eq_next_iff.mpr (.vacant hf hpc hd), errorKept_raise_fetched _ s, rfl, rfl, rfl, rfl⟩
  · obtain ⟨hpc, rfl⟩ := fetch_eq_ok_iff.mp hop
    exact ⟨_, step_eq_next_iff.mpr (.unknown hf hpc hd), errorKept_raise_fetched _ s, rfl, rfl, rfl, rfl⟩

/-- An instruction either leaves FAULT as it is or is one error entry. -/
theorem Answers.fault_eq_or_raise (h : Answers p s i t) : t.fault = s.fault ∨ ∃ e, t = raise e s := by
  cases h with
  | retUnderflow | callOverflow | drwFault => exact .inr ⟨_, rfl⟩
  | _ => exact .inl rfl

/-- Settles O12: the errors before execution keep all else, and an instruction that latches an error is one error entry
in the fetched state. -/
theorem errorsLeaveNoPartialEffect : Obligations.ErrorsLeaveNoPartialEffect := by
  intro s t hf hstep hfault
  cases step_eq_next_iff.mp hstep with
  | latched => exact absurd hf hfault
  | fetchAbove _ hpc | fetchEdge _ hpc => exact ⟨errorKept_raise_closeLoad _ s, rfl, (if_neg (by omega)).symm⟩
  | vacant _ hpc | unknown _ hpc => exact ⟨errorKept_raise_fetched _ s, rfl, (if_pos hpc).symm⟩
  | instr _ hpc _ h =>
    rcases h.fault_eq_or_raise with hkept | ⟨e, rfl⟩
    · exact absurd (hkept.trans hf) hfault
    · exact ⟨errorKept_raise_fetched _ s, rfl, (if_pos hpc).symm⟩

/-! ### Which error a STEP latches -/

/-- The FAULT an instruction leaves when none is latched, as `firstError` says it for the word that decodes to it. -/
theorem Answers.fault_eq_firstError (hf : s.fault = 0) (hsp : s.sp ≤ 16) (hpc : s.pc.toNat ≤ 0xFFE)
    (hd : decode s.wordAtPc = .instr i) (h : Answers p s.fetched i t) : t.fault = firstError p.emptyRetPolicy s := by
  have hdec : decode (wordOfBytes (Memory.read s.mem s.pc.toNat) (Memory.read s.mem (s.pc.toNat + 1))) = .instr i := hd
  rw [firstError, if_neg (by omega), if_neg (by omega), hdec]
  cases h with
  | retPop h0 => exact hf.trans (if_neg fun h => h0.ne' h.1).symm
  | retFallback _ hp => exact hf.trans (if_neg (by rw [hp]; nofun)).symm
  | retUnderflow h0 hp => exact (if_pos ⟨h0, hp⟩).symm
  | callPush _ h16 => exact hf.trans (if_neg h16.ne).symm
  | callOverflow _ h16 => exact (if_pos (Nat.le_antisymm hsp h16)).symm
  | drwInside x y n hrows =>
    refine hf.trans (if_neg fun ⟨hn, hout⟩ => ?_).symm
    have hlast : s.i.toNat + (n - 1) ≤ 0xFFF := hrows (n - 1) (by omega)
    omega
  | drwFault x y n r hr hout =>
    have hrow : 0xFFF < s.i.toNat + r := hout
    exact (if_pos ⟨by omega, by omega⟩).symm
  | _ => exact hf

theorem StepsTo.fault_eq_firstError (hf : s.fault = 0) (hsp : s.sp ≤ 16) (h : StepsTo p s t) :
    t.fault = firstError p.emptyRetPolicy s := by
  cases h with
  | latched hlatched => exact absurd hf hlatched
  | fetchAbove _ hpc => exact (if_pos hpc).symm
  | fetchEdge _ hpc => rw [firstError, if_neg (by omega), if_pos (by omega)]; rfl
  | vacant _ hpc hd | unknown _ hpc hd =>
    rw [State.wordAtPc] at hd
    rw [firstError, if_neg (by omega), if_neg (by omega), hd]
    rfl
  | instr _ hpc hd h => exact h.fault_eq_firstError hf hsp hpc hd

/-- Settles O13: the cases of a STEP come in the order of `firstError`. -/
theorem errorPriority : Obligations.ErrorPriority := fun _ _ hf hsp =>
  ⟨fun h => (step_eq_next_iff.mp h).fault_eq_firstError hf hsp,
    fun _ h => (stepUnder_eq_next_iff.mp h).fault_eq_firstError hf hsp⟩

end Sys2Proof.Machine
end

section
/-! SUPPORT. What no instruction, or only some instructions, may change (spec 10_state.md, 20_memory.md section 4,
40_alu.md section 7). -/

namespace Sys2Proof.Machine

variable {p : Params} {s t : State} {i : Instr}

/-! ### Memory, timers, keys, LOADABLE -/

/-- No instruction writes memory, a timer, a key or LOADABLE. -/
theorem Answers.hostState_eq (h : Answers p s i t) :
    t.mem = s.mem ∧ t.dt = s.dt ∧ t.st = s.st ∧ t.key = s.key ∧ t.loadable = s.loadable := by
  cases h <;> exact ⟨rfl, rfl, rfl, rfl, rfl⟩

/-- No STEP writes memory, a timer or a key. -/
theorem StepsTo.hostState_eq (h : StepsTo p s t) : t.mem = s.mem ∧ t.dt = s.dt ∧ t.st = s.st ∧ t.key = s.key := by
  cases h with
  | instr _ _ _ h =>
    obtain ⟨hmem, hdt, hst, hkey, -⟩ := h.hostState_eq
    exact ⟨hmem, hdt, hst, hkey⟩
  | _ => exact ⟨rfl, rfl, rfl, rfl⟩

theorem hostSideKept_of_eq (hdt : t.dt = s.dt) (hst : t.st = s.st) (hkey : t.key = s.key) : HostSideKept s t :=
  ⟨hdt, hst, fun _ => by rw [hkey]⟩

/-- Settles O40: both clauses read off what an answer and a STEP leave of the host's elements. -/
theorem instructionsNeverWriteHostState : Obligations.InstructionsNeverWriteHostState := by
  constructor
  · intro i s t h
    obtain ⟨hmem, hdt, hst, hkey, hload⟩ := (exec_eq_next_iff.mp h).hostState_eq
    exact ⟨hmem, hostSideKept_of_eq hdt hst hkey, hload⟩
  · intro s t h
    obtain ⟨hmem, hdt, hst, hkey⟩ := (step_eq_next_iff.mp h).hostState_eq
    exact ⟨hmem, hostSideKept_of_eq hdt hst hkey⟩

/-! ### PC -/

theorem ite_skip_pc (c : Bool) (a : Word) : (if c then a + 2 else a) = a ∨ (if c then a + 2 else a) = a + 2 := by
  cases c
  · exact .inl rfl
  · exact .inr rfl

/-- Settles O41: the PC of each answer. -/
theorem pcIsWrittenOnlyByControlFlow : Obligations.PcIsWrittenOnlyByControlFlow := by
  intro i s t h
  cases exec_eq_next_iff.mp h with
  | jp nnn => exact addrOperand_toNat nnn
  | callPush nnn _ => exact .inl (addrOperand_toNat nnn)
  | callOverflow => exact .inr ⟨rfl, rfl⟩
  | jpV0 nnn => exact toNat_addrOperand_add_zext16 nnn (s.reg 0)
  | retPop hsp => exact .inl ⟨hsp, rfl⟩
  | retFallback hsp => exact .inr ⟨hsp, rfl⟩
  | retUnderflow _ hp => cases hp
  | seImm | sneImm | seReg | sneReg | skp | sknp => exact ite_skip_pc _ s.pc
  | _ => rfl

/-! ### I and the stack -/

theorem Answers.i_eq (h : Answers p s i t) (hi : ∀ nnn, i ≠ .ldI nnn) : t.i = s.i := by
  cases h with
  | ldI nnn => exact absurd rfl (hi nnn)
  | _ => rfl

theorem Answers.stack_eq (h : Answers p s i t) (hi : ∀ nnn, i ≠ .call nnn) : t.stack = s.stack := by
  cases h with
  | callPush nnn => exact absurd rfl (hi nnn)
  | _ => rfl

/-- SP rises by one with a push, falls by one with a pop, and else stays. -/
theorem Answers.sp_cases (h : Answers p s i t) :
    t.sp = s.sp ∨ (∃ nnn, i = .call nnn ∧ t.sp = s.sp + 1) ∨ (i = .ret ∧ s.sp = t.sp + 1) := by
  cases h with
  | callPush nnn => exact .inr (.inl ⟨nnn, rfl, rfl⟩)
  | retPop hsp => exact .inr (.inr ⟨rfl, (Nat.sub_add_cancel hsp).symm⟩)
  | _ => exact .inl rfl

/-- Settles O42: I and the stack are kept by all but their writers, and SP moves only with a push or a pop. -/
theorem indexAndStackWriters : Obligations.IndexAndStackWriters := by
  intro i s t h
  have ha := exec_eq_next_iff.mp h
  refine ⟨ha.i_eq, fun hi k => by rw [ha.stack_eq hi], ?_⟩
  rcases ha.sp_cases with hsp | ⟨nnn, rfl, hsp⟩ | ⟨rfl, hsp⟩
  · exact ⟨fun _ => hsp.le, fun _ => hsp.ge, by omega, by omega⟩
  · exact ⟨fun hi => absurd rfl (hi nnn), fun _ => by omega, by omega, by omega⟩
  · exact ⟨fun _ => by omega, fun hi => absurd rfl hi, by omega, by omega⟩

/-! ### The framebuffer and the registers -/

/-- Settles O43: every other answer has the framebuffer of its state. -/
theorem screenWriters : Obligations.ScreenWriters := by
  intro i s t hcls hdrw h
  cases exec_eq_next_iff.mp h with
  | cls => exact absurd rfl hcls
  | drwInside x y n => exact absurd rfl (hdrw x y n)
  | _ => rfl

theorem regsKeptBut_setReg (s : State) (x : Reg) (b : Byte) : RegsKeptBut x s (s.setReg x b) :=
  fun _ h => State.setReg_reg_ne s b h

/-- Settles O44: the registers of each answer. -/
theorem registerWriters : Obligations.RegisterWriters := by
  intro i s t h
  cases exec_eq_next_iff.mp h with
  | ldImm | addImm | ldReg | orReg | andReg | xorReg => exact regsKeptBut_setReg s _ _
  | rnd x nn => exact regsKeptBut_setReg s.countDraw x _
  | addReg | subReg | subnReg | shrReg | shlReg => exact fun _ hx hf => State.setRegFlag_reg_other s _ _ hx hf
  | drwInside => exact regsKeptBut_setReg (s.setFb _) vf _
  | drwFault => exact fun _ _ => rfl
  | _ => exact fun _ => rfl

/-! ### Draws -/

/-- Only CXNN takes a draw. -/
theorem Answers.draws_eq (h : Answers p s i t) (hi : ∀ x nn, i ≠ .rnd x nn) : t.draws = s.draws := by
  cases h with
  | rnd x nn => exact absurd rfl (hi x nn)
  | _ => rfl

theorem and_and_not_self (r nn : Byte) : r &&& nn &&& ~~~nn = 0 := by
  rw [BitVec.and_assoc, BitVec.and_not_self]
  exact BitVec.and_zero

/-- CXNN writes the masked draw to V[X] and counts one draw (R130, R131). -/
theorem rnd_frame (r : Byte) (x : Reg) (nn : Byte) (s : State) :
    RegsKeptBut x s (s.countDraw.setReg x (r &&& nn)) ∧ OnlyRegsDiffer s (s.countDraw.setReg x (r &&& nn)) ∧
      (s.countDraw.setReg x (r &&& nn)).draws = s.draws + 1 :=
  setReg_frame s.countDraw x (r &&& nn)

/-- Settles O26: V[X] is the draw masked by NN; a RAND that is the byte `r` throughout draws `r`. -/
theorem rndMasksOneFreshDraw : Obligations.RndMasksOneFreshDraw := by
  refine ⟨encodedAs_rnd, fun x nn s => ⟨_, exec_eq_next_iff.mpr (.rnd x nn), ?_⟩,
    fun i s t hi h => (exec_eq_next_iff.mp h).draws_eq hi,
    fun p x nn s => ⟨_, execUnder_eq_next_iff.mpr (.rnd x nn), State.setReg_reg_same _ x _, rnd_frame _ x nn s⟩,
    fun r x nn s => ⟨{ Config.params with rand := fun _ => r }, _, execUnder_eq_next_iff.mpr (.rnd x nn),
      State.setReg_reg_same _ x _⟩⟩
  rw [State.setReg_reg_same]
  refine ⟨rfl, and_and_not_self _ nn, ?_, rnd_frame _ x nn s⟩
  rw [BitVec.toNat_and]
  exact Nat.and_le_right

end Sys2Proof.Machine
end

section
/-! SUPPORT. What instructions do not see: the timers, the keys, the dead stack entries (spec 10_state.md sections 4 to 6).
An answer from a state that differs in such an element differs in it alone. -/

namespace Sys2Proof.Machine

/-- The state with other timer values. -/
def State.withTimers (d e : Byte) (s : State) : State := { s with dt := d, st := e }

/-- The state with another key state. -/
def State.withKeys (k : Vector Bool 16) (s : State) : State := { s with key := k }

/-- The state with other stack entries. -/
def State.withStack (v : Vector Word 16) (s : State) : State := { s with stack := v }

variable {p : Params} {s t : State} {i : Instr}

/-! ### Timers -/

/-- No branch's condition and no written value names a timer, so each constructor answers for the other state too. -/
theorem Answers.withTimers (d e : Byte) (h : Answers p s i t) : Answers p (s.withTimers d e) i (t.withTimers d e) := by
  cases h <;> constructor <;> assumption

theorem StepsTo.withTimers (d e : Byte) (h : StepsTo p s t) : StepsTo p (s.withTimers d e) (t.withTimers d e) := by
  cases h with
  | instr hf hpc hd h => exact .instr hf hpc hd (h.withTimers d e)
  | _ => constructor <;> assumption

/-- Settles O45: a STEP from the state with other timers is the STEP of the state, with those timers. -/
theorem timersAreInvisibleToSteps : Obligations.TimersAreInvisibleToSteps := fun _ _ d e h =>
  step_eq_next_iff.mpr ((step_eq_next_iff.mp h).withTimers d e)

/-! ### Keys -/

/-- Only the two key skips have a value that names the keys. -/
theorem Answers.withKeys (k : Vector Bool 16) (hskp : ∀ x, i ≠ .skp x) (hsknp : ∀ x, i ≠ .sknp x)
    (h : Answers p s i t) : Answers p (s.withKeys k) i (t.withKeys k) := by
  cases h with
  | skp x => exact absurd rfl (hskp x)
  | sknp x => exact absurd rfl (hsknp x)
  | _ => constructor <;> assumption

/-- Settles O46: an answer from the state with other keys is the answer of the state, with those keys. -/
theorem keysAreReadOnlyByKeySkips : Obligations.KeysAreReadOnlyByKeySkips := fun _ _ _ k hskp hsknp h =>
  exec_eq_next_iff.mpr ((exec_eq_next_iff.mp h).withKeys k hskp hsknp)

/-! ### Dead stack entries -/

/-- Two stacks of which the first `n` entries are equal. -/
def AgreeBelow (n : Nat) (v w : Vector Word 16) : Prop := ∀ k : Fin 16, k.val < n → w[k] = v[k]

/-- The top is a live entry, so a pop does not see the dead ones. -/
theorem top_withStack {v : Vector Word 16} (hpos : 0 < s.sp) (hsp : s.sp ≤ 16) (hv : AgreeBelow s.sp s.stack v) :
    (s.withStack v).top = s.top := by
  have hlt : s.sp - 1 < 16 := by omega
  rw [top_eq s hlt, top_eq (s.withStack v) hlt]
  exact hv ⟨s.sp - 1, hlt⟩ (by simp only; omega)

/-- A push makes the entry it writes the last live one. -/
theorem agreeBelow_setIfInBounds {n : Nat} {v w : Vector Word 16} (a : Word) (hvw : AgreeBelow n v w) :
    AgreeBelow (n + 1) (v.setIfInBounds n a) (w.setIfInBounds n a) := by
  intro k hk
  by_cases hkn : n = k.val
  · simp [hkn]
  · have hlt : k.val < n := by omega
    have h := hvw k hlt
    simp only [Fin.getElem_fin] at h ⊢
    rw [Vector.getElem_setIfInBounds_ne _ hkn, Vector.getElem_setIfInBounds_ne _ hkn, h]

/-- Only a pop reads the stack, and only a push writes it. -/
theorem Answers.withStack {v : Vector Word 16} (hsp : s.sp ≤ 16) (hv : AgreeBelow s.sp s.stack v)
    (h : Answers p s i t) : ∃ w, Answers p (s.withStack v) i (t.withStack w) ∧ AgreeBelow t.sp t.stack w := by
  cases h with
  | retPop hpos =>
    have hpop : (s.withStack v).popPc = s.popPc.withStack v := by
      rw [State.popPc, top_withStack hpos hsp hv]
      rfl
    exact ⟨v, hpop ▸ .retPop hpos, fun k hk => hv k (Nat.lt_of_lt_of_le hk (Nat.sub_le _ 1))⟩
  | callPush nnn hlt =>
    exact ⟨v.setIfInBounds s.sp s.pc, .callPush nnn hlt, agreeBelow_setIfInBounds s.pc hv⟩
  | _ => exact ⟨v, by constructor <;> assumption, hv⟩

theorem StepsTo.withStack {v : Vector Word 16} (hsp : s.sp ≤ 16) (hv : AgreeBelow s.sp s.stack v)
    (h : StepsTo p s t) : ∃ w, StepsTo p (s.withStack v) (t.withStack w) ∧ AgreeBelow t.sp t.stack w := by
  cases h with
  | instr hf hpc hd h =>
    obtain ⟨w, hw, hlive⟩ := h.withStack (s := s.fetched) hsp hv
    exact ⟨w, .instr hf hpc hd hw, hlive⟩
  | _ => exact ⟨v, by constructor <;> assumption, hv⟩

/-- Settles O47: the two states differ by `State.withStack`, and so do the states after the STEP. -/
theorem deadStackEntriesAreInvisible : Obligations.DeadStackEntriesAreInvisible := by
  rintro s s' t hsp ⟨hs', hlive⟩ hstep
  obtain ⟨w, hw, hwlive⟩ := (step_eq_next_iff.mp hstep).withStack hsp hlive
  rw [hs']
  exact ⟨t.withStack w, step_eq_next_iff.mpr hw, rfl, hwlive⟩

end Sys2Proof.Machine
end

section
/-! SUPPORT. Everything a host operation can answer, for any parameters (spec 43_host_interface.md R190). -/

namespace Sys2Proof.Machine

/-- `Performs p s o t`: under the parameters `p` the host operation `o` takes `s` to `t`. -/
inductive Performs (p : Params) (s : State) : HostOp → State → Prop where
  | reset : Performs p s .reset (hostResetUnder p s)
  | load (image : List Byte) (hload : s.loadable = true) (hf : s.fault = 0) (hlen : image.length ≤ maxImage) :
      Performs p s (.load image) { s.closeLoad with mem := Memory.writeBytes s.mem loadBase image }
  | loadTooLong (image : List Byte) (hload : s.loadable = true) (hf : s.fault = 0) (hlen : maxImage < image.length) :
      Performs p s (.load image) (raise (.loadingError image.length) s.closeLoad)
  | step {t : State} (h : StepsTo p s t) : Performs p s .step t
  | timerTick (d e : Bool) : Performs p s (.timerTick d e) (tickUnder p.timerUnderflow d e s)
  | key (k : Nat) (b : Bool) (hk : k < 16) : Performs p s (.key k b) { s with key := s.key.set k b hk }
  | fbRead : Performs p s .fbRead s
  | status : Performs p s .status s

variable {p : Params} {s t : State} {o : HostOp} {r : HostResult}

theorem withResult_eq_next_iff {f : State → HostResult} {u : Host.Outcome State Fault Refusal} :
    withResult f u = .next (t, r) ↔ u = .next t ∧ f t = r := by
  cases u with
  | next a =>
    simp only [withResult, Host.Outcome.next.injEq, Prod.mk.injEq]
    exact and_congr_right fun h => by rw [h]
  | fault a => exact ⟨nofun, nofun⟩
  | refused a => exact ⟨nofun, nofun⟩

/-- An accepted LOAD copies an image that fits and else raises LoadingError (R191). -/
theorem performs_load {image : List Byte} (hload : s.loadable = true) (hf : s.fault = 0) :
    Performs p s (.load image) (loadImage image s) := by
  unfold loadImage
  split_ifs with hlen
  · exact .loadTooLong image hload hf hlen
  · exact .load image hload hf (Nat.le_of_not_lt hlen)

/-- What a host operation answers is one of the cases of `Performs`. -/
theorem performs_of_performUnder (h : performUnder p o s = .next (t, r)) : Performs p s o t := by
  cases o with
  | reset => cases h; exact .reset
  | load image =>
    obtain ⟨h, -⟩ := withResult_eq_next_iff.mp h
    unfold hostLoad at h
    split_ifs at h with hacc
    cases h
    exact performs_load hacc.1 hacc.2
  | step => exact .step (stepUnder_eq_next_iff.mp (withResult_eq_next_iff.mp h).1)
  | timerTick d e => cases h; exact .timerTick d e
  | key k b =>
    obtain ⟨h, -⟩ := withResult_eq_next_iff.mp h
    unfold hostKey at h
    split_ifs at h with hk
    cases h
    exact .key k b hk
  | fbRead => cases h; exact .fbRead
  | status => cases h; exact .status

theorem performs_of_perform (h : perform o s = .next (t, r)) : Performs Config.params s o t :=
  performs_of_performUnder h

end Sys2Proof.Machine
end

section
/-! SUPPORT. The machine's invariant: RESET establishes it, and every STEP and every host operation keeps it. -/

namespace Sys2Proof.Machine

variable {p : Params} {s t : State} {i : Instr} {o : HostOp}

/-! ### The updates an instruction makes -/

namespace State.InvUnder

theorem setPc {a : Word} (h : s.InvUnder p) (ha : a.toNat ≤ 0x10FE) : (s.setPc a).InvUnder p := { h with pc_le := ha }

theorem setI {a : Word} (h : s.InvUnder p) (ha : a.toNat ≤ 0xFFF) : (s.setI a).InvUnder p := { h with i_le := ha }

theorem setReg {x : Reg} {b : Byte} (h : s.InvUnder p) : (s.setReg x b).InvUnder p := { h with }

theorem setFb {fb : Screen} (h : s.InvUnder p) : (s.setFb fb).InvUnder p := { h with }

theorem countDraw (h : s.InvUnder p) : s.countDraw.InvUnder p := { h with }

theorem closeLoad (h : s.InvUnder p) : s.closeLoad.InvUnder p := { h with fault_closed := fun _ => rfl }

/-- An error entry records what it latches, once LOADABLE is 0 (R35, R36). -/
theorem raise {e : ErrorInfo} (h : s.InvUnder p) (hload : s.loadable = false) :
    (Machine.raise e s).InvUnder p :=
  { h with
    fault_eq := rfl
    fault_closed := fun _ => hload }

/-- A pushed return address is live, so it has to meet the bound of the live ones (R29). -/
theorem push {a : Word} (h : s.InvUnder p) (hsp : s.sp < 16) (ha : a.toNat ≤ 0x1000) : (s.push a).InvUnder p :=
  { h with
    sp_le := hsp
    live_le := fun k hk => by
      by_cases hks : k.val = s.sp
      · simpa [← hks] using ha
      · rw [push_stack_below s a k hks]
        exact h.live_le k (Nat.lt_of_le_of_ne (Nat.le_of_lt_succ hk) hks) }

/-- The popped return address was live (R29). -/
theorem popPc (h : s.InvUnder p) (hpos : 0 < s.sp) : s.popPc.InvUnder p :=
  have hsp := h.sp_le
  have htop : s.top.toNat ≤ 0x1000 := by
    rw [top_eq s (by omega)]
    exact h.live_le ⟨s.sp - 1, by omega⟩ (Nat.sub_lt hpos Nat.one_pos)
  { h with
    pc_le := htop.trans (by decide)
    sp_le := (Nat.sub_le _ 1).trans hsp
    live_le := fun k hk => h.live_le k (Nat.lt_of_lt_of_le hk (Nat.sub_le _ 1)) }

end State.InvUnder

/-! ### A STEP -/

/-- A skip starts at a PC of at most 0x1000, so it stays far below the bound. -/
theorem toNat_ite_skip_le {a : Word} (c : Bool) (ha : a.toNat ≤ 0x1000) :
    (if c then a + 2 else a).toNat ≤ 0x10FE := by
  have hadd : (a + 2).toNat = a.toNat + 2 := by
    rw [BitVec.toNat_add, show (2 : Word).toNat = 2 from rfl]
    omega
  cases c
  · exact ha.trans (by decide)
  · exact hadd.trans_le (by omega)

/-- An instruction keeps the invariant from a fetched state: PC is at most 0x1000 there, and LOADABLE is 0. -/
theorem Answers.invUnder (hs : s.InvUnder p) (hpc : s.pc.toNat ≤ 0x1000) (hload : s.loadable = false)
    (h : Answers p s i t) : t.InvUnder p := by
  have hnnn : ∀ nnn : BitVec 12, (addrOperand nnn).toNat ≤ 0xFFF := fun nnn => by
    have hlt := nnn.isLt
    rw [addrOperand_toNat]
    omega
  cases h with
  | cls => exact hs.setFb
  | retPop hpos => exact hs.popPc hpos
  | retFallback => exact hs.setPc (by decide)
  | retUnderflow | callOverflow | drwFault => exact hs.raise hload
  | jp nnn => exact hs.setPc ((hnnn nnn).trans (by decide))
  | callPush nnn hsp => exact (hs.push hsp hpc).setPc ((hnnn nnn).trans (by decide))
  | seImm | sneImm | seReg | sneReg | skp | sknp => exact hs.setPc (toNat_ite_skip_le _ hpc)
  | ldImm | addImm | ldReg | orReg | andReg | xorReg => exact hs.setReg
  | addReg | subReg | subnReg | shrReg | shlReg => exact hs.setReg.setReg
  | ldI nnn => exact hs.setI (hnnn nnn)
  | jpV0 nnn =>
    refine hs.setPc ?_
    have haddr := nnn.isLt
    have hoffset := (s.reg 0).isLt
    rw [toNat_addrOperand_add_zext16]
    omega
  | rnd => exact hs.countDraw.setReg
  | drwInside => exact hs.setFb.setReg

/-- The fetch advances a PC of at most 0xFFE. -/
theorem toNat_fetched_pc (hpc : s.pc.toNat ≤ 0xFFE) : s.fetched.pc.toNat ≤ 0x1000 := by
  change (s.pc + 2).toNat ≤ 0x1000
  rw [BitVec.toNat_add, show (2 : Word).toNat = 2 from rfl]
  omega

theorem State.InvUnder.fetched (hs : s.InvUnder p) (hpc : s.pc.toNat ≤ 0xFFE) : s.fetched.InvUnder p :=
  hs.closeLoad.setPc ((toNat_fetched_pc hpc).trans (by decide))

theorem StepsTo.invUnder (hs : s.InvUnder p) (h : StepsTo p s t) : t.InvUnder p := by
  cases h with
  | latched => exact hs
  | fetchAbove | fetchEdge => exact hs.closeLoad.raise rfl
  | vacant _ hpc | unknown _ hpc => exact (hs.fetched hpc).raise rfl
  | instr _ hpc _ h => exact h.invUnder (hs.fetched hpc) (toNat_fetched_pc hpc) rfl

/-- Settles O49: every case of a STEP keeps the invariant, an instruction from the fetched state. -/
theorem stepKeepsInv : Obligations.StepKeepsInv :=
  ⟨fun _ _ hs h => (step_eq_next_iff.mp h).invUnder hs, fun _ _ _ hs h => (stepUnder_eq_next_iff.mp h).invUnder hs⟩

/-! ### RESET and the other host operations -/

theorem invUnder_resetUnder (p : Params) : (State.resetUnder p).InvUnder p where
  pc_le := show (0x0200 : Word).toNat ≤ 0x10FE by decide
  i_le := Nat.zero_le 0xFFF
  sp_le := Nat.zero_le 16
  live_le := fun _ h => absurd h (Nat.not_lt_zero _)
  mem_wf := wf_fontMemory p.font
  low_kept := fun a _ => read_fontMemory p.font a
  fault_eq := rfl
  fault_closed := fun h => absurd rfl h

/-- Settles O48: for any parameters, of which this hardware's are one choice. -/
theorem invHoldsAtReset : Obligations.InvHoldsAtReset :=
  ⟨resetUnder_params ▸ invUnder_resetUnder Config.params, invUnder_resetUnder⟩

theorem Performs.invUnder (hs : s.InvUnder p) (h : Performs p s o t) : t.InvUnder p := by
  cases h with
  | reset => exact { invUnder_resetUnder p with }
  | load image _ _ hlen =>
    exact { hs.closeLoad with
      mem_wf := Memory.wf_writeBytes hs.mem_wf (by unfold maxImage at hlen; unfold loadBase memorySize; omega)
      low_kept := fun a ha => (Memory.read_writeBytes_outside (.inl ha)).trans (hs.low_kept a ha) }
  | loadTooLong => exact hs.closeLoad.raise rfl
  | step h => exact h.invUnder hs
  | timerTick | key => exact { hs with }
  | fbRead | status => exact hs

/-- Settles O50: a LOAD writes inside the memory and above the reserved range; the other operations but RESET and STEP
write nothing the invariant speaks of. -/
theorem hostOperationsKeepInv : Obligations.HostOperationsKeepInv :=
  ⟨fun _ _ _ _ hs h => (performs_of_perform h).invUnder hs,
    fun _ _ _ _ _ hs h => (performs_of_performUnder h).invUnder hs⟩

end Sys2Proof.Machine
end

section
/-! SUPPORT. The stack instructions and the register skips (spec 41_control_flow.md sections 2, 3 and 5). -/

namespace Sys2Proof.Machine

variable {p : Params} {s t u : State} {o : HostOp} {r : HostResult} {n : Nat}

/-! ### 5XY0 and 9XY0 -/

/-- Settles O30: both answers are one write of PC; 9XY0's condition is the negation of 5XY0's. -/
theorem skipsOnRegister : Obligations.SkipsOnRegister := by
  refine ⟨encodedAs_seReg, encodedAs_sneReg, fun op hF => (decode_eq_unknownInstruction_iff_fieldN hF).mpr,
    fun x y s => ⟨⟨_, exec_eq_next_iff.mpr (.seReg x y), ?_, onlyPcDiffers_setPc s _⟩,
      ⟨_, exec_eq_next_iff.mpr (.sneReg x y), ?_, onlyPcDiffers_setPc s _⟩⟩⟩
  · simp only [State.setPc_pc, beq_iff_eq]
  · simp only [State.setPc_pc, bne_iff_ne, ite_not]

/-! ### 2NNN and 00EE -/

/-- The entry a push writes. -/
theorem push_stack_same (a : Word) (hsp : s.sp < 16) : (s.push a).stack[s.sp] = a := by
  simp only [State.push_stack, Vector.getElem_setIfInBounds_self]

theorem systemKept_push_setPc (s : State) (a b : Word) : SystemKept s ((s.push a).setPc b) :=
  ⟨fun _ => rfl, ⟨rfl, rfl, fun _ => rfl⟩, rfl, rfl, rfl⟩

/-- Settles O32: a call is a push and a write of PC, or one error entry. -/
theorem callPushesOrOverflows : Obligations.CallPushesOrOverflows := by
  refine ⟨encodedAs_call, fun nnn s => ⟨fun hsp => ?_, fun hsp => ?_⟩⟩
  · exact ⟨_, exec_eq_next_iff.mpr (.callPush nnn hsp), addrOperand_toNat nnn, rfl, push_stack_same s.pc hsp,
      push_stack_below s s.pc, fun _ => rfl, rfl, rfl, fun _ _ => rfl, systemKept_push_setPc s _ _⟩
  · exact ⟨_, exec_eq_next_iff.mpr (.callOverflow nnn hsp.ge), rfl, rfl, rfl, rfl, errorKept_raise _ s⟩

/-- Under FALLBACK_ZERO a return changes PC and SP alone. -/
theorem retUnder_fallbackZero_frame (s : State) :
    RegsKept s (retUnder .fallbackZero s) ∧ (retUnder .fallbackZero s).i = s.i ∧
      (retUnder .fallbackZero s).draws = s.draws ∧ (∀ k : Fin 16, (retUnder .fallbackZero s).stack[k] = s.stack[k]) ∧
      ScreenKept s (retUnder .fallbackZero s) ∧ SystemKept s (retUnder .fallbackZero s) := by
  rcases Nat.eq_zero_or_pos s.sp with hsp | hsp
  · rw [retUnder_fallbackZero hsp]
    obtain ⟨hregs, hi, hdraws, ⟨-, hstack⟩, hscreen, hsystem⟩ := onlyPcDiffers_setPc s 0
    exact ⟨hregs, hi, hdraws, hstack, hscreen, hsystem⟩
  · rw [retUnder_pop _ hsp]
    exact ⟨fun _ => rfl, rfl, rfl, fun _ => rfl, fun _ _ => rfl, fun _ => rfl, ⟨rfl, rfl, fun _ => rfl⟩, rfl, rfl, rfl⟩

/-- Settles O33: with entries both policies pop, and on an empty stack they are one write of PC or one error entry. -/
theorem retPopsOrFallsBack : Obligations.RetPopsOrFallsBack := by
  refine ⟨encodedAs_ret, fun _ => rfl, fun _ _ => rfl, fun p s hpos hsp => ?_, fun s hsp => ?_,
    retUnder_fallbackZero_frame, fun s => ⟨fun hsp => ?_, fun hpos => ?_⟩⟩
  · rw [retUnder_pop p hpos]
    exact ⟨top_eq s (by omega), rfl⟩
  · rw [retUnder_fallbackZero hsp]
    exact ⟨rfl, hsp⟩
  · rw [retUnder_fault hsp]
    exact ⟨rfl, rfl, rfl, rfl, errorKept_raise _ s⟩
  · rw [retUnder_pop _ hpos, retUnder_pop _ hpos]

/-! ### A call and a return at its depth -/

/-- An operation above depth `n` leaves the `n` lowest entries alone: only a push writes an entry, and it writes the one
at SP. -/
theorem Answers.agreeBelow {i : Instr} (hn : n ≤ s.sp) (h : Answers p s i t) : AgreeBelow n s.stack t.stack := by
  cases h with
  | callPush nnn =>
    intro k hk
    exact push_stack_below s s.pc k (by omega)
  | _ => exact fun _ _ => rfl

theorem Performs.agreeBelow (hn : n ≤ s.sp) (ho : o ≠ .reset) (h : Performs p s o t) :
    AgreeBelow n s.stack t.stack := by
  cases h with
  | reset => exact absurd rfl ho
  | step h =>
    cases h with
    | instr _ _ _ h => exact h.agreeBelow (s := s.fetched) hn
    | _ => exact fun _ _ => rfl
  | _ => exact fun _ _ => rfl

theorem OpsAbove.agreeBelow (hn : n ≤ s.sp) (h : OpsAbove p n s t) : n ≤ t.sp ∧ AgreeBelow n s.stack t.stack := by
  induction h with
  | refl => exact ⟨hn, fun _ _ => rfl⟩
  | tail _ ho hop hsp ih =>
    obtain ⟨hdepth, hbelow⟩ := ih
    have hlast := (performs_of_performUnder hop).agreeBelow hdepth ho
    exact ⟨hsp, fun k hk => (hlast k hk).trans (hbelow k hk)⟩

/-- A return finds the address that a call pushed below everything since. -/
theorem OpsAbove.top_eq_pushed {a b : Word} (hsp : s.sp < 16) (h : OpsAbove p (s.sp + 1) ((s.push a).setPc b) u)
    (hu : u.sp = s.sp + 1) : u.top = a := by
  have hsp' : u.sp - 1 = s.sp := by omega
  have hdepth : s.sp + 1 ≤ ((s.push a).setPc b).sp := le_rfl
  obtain ⟨-, hbelow⟩ := h.agreeBelow hdepth
  rw [State.top, hsp', ← push_stack_same (s := s) a hsp]
  simpa [Vector.getD, hsp] using hbelow ⟨s.sp, hsp⟩ (Nat.lt_succ_self s.sp)

/-- A call with SP below 16 pushes. -/
theorem eq_push_of_execUnder_call {nnn : BitVec 12} (hsp : s.sp < 16) (h : execUnder p (.call nnn) s = .next t) :
    t = (s.push s.pc).setPc (addrOperand nnn) := by
  cases execUnder_eq_next_iff.mp h with
  | callPush => rfl
  | callOverflow _ h16 => omega

/-- The clause of the two meanings. -/
theorem ret_after_call {nnn : BitVec 12} (hsp : s.sp < 16) (hcall : execUnder p (.call nnn) s = .next t)
    (hops : OpsAbove p (s.sp + 1) t u) (hu : u.sp = s.sp + 1) :
    execUnder p .ret u = .next u.popPc ∧ u.popPc.pc = s.pc ∧ u.popPc.sp = s.sp := by
  obtain rfl := eq_push_of_execUnder_call hsp hcall
  refine ⟨execUnder_eq_next_iff.mpr (.retPop (by omega)), hops.top_eq_pushed hsp hu, ?_⟩
  rw [State.popPc_sp, hu, Nat.add_sub_cancel]

/-- A STEP whose fetch gives an instruction's word runs it. -/
theorem stepUnder_of_fetch {i : Instr} {op : Word} (p : Params) (hf : s.fault = 0) (hfetch : fetch s = .ok op)
    (hd : decode op = .instr i) : stepUnder p s = execUnder p i s.fetched := by
  obtain ⟨hpc, rfl⟩ := fetch_eq_ok_iff.mp hfetch
  exact stepUnder_of_decode p hf hpc hd

/-- Settles O34: the pushed entry lies below the depth that the operations between keep, so the return finds it; in the
second clause the two meanings run in the fetched states. -/
theorem callThenReturn : Obligations.CallThenReturn := by
  constructor
  · intro p nnn s t u hsp hcall hops hu
    exact ⟨_, ret_after_call hsp hcall hops hu⟩
  · intro p nnn s t u hsp hf hfetch hstep hops hu huf hufetch
    rw [stepUnder_of_fetch p hf hfetch (decode_encode rfl)] at hstep
    obtain rfl := eq_push_of_execUnder_call (s := s.fetched) hsp hstep
    have htop : u.top = s.fetched.pc := hops.top_eq_pushed (s := s.fetched) hsp hu
    refine ⟨u.fetched.popPc, ?_, htop, ?_, huf⟩
    · rw [stepUnder_of_fetch p huf hufetch rfl]
      exact execUnder_eq_next_iff.mpr (.retPop (hu ▸ Nat.succ_pos s.sp))
    · change u.sp - 1 = s.sp
      rw [hu, Nat.add_sub_cancel]

/-! ### A return on an empty stack -/

/-- The two bytes at address 0 lie in the reserved range, outside the font, so they are the null word (R58). -/
theorem wordAtPc_of_pc_eq_zero (hs : s.InvUnder p) (hpc : s.pc = 0) : s.wordAtPc = 0 := by
  have hbyte : ∀ a, a < 0x050 → Memory.read s.mem a = 0 := fun a ha => by
    rw [hs.low_kept a (by omega), fontAt_outside _ (.inl ha)]
  rw [State.wordAtPc, hpc, hbyte _ (by decide), hbyte _ (by decide)]
  rfl

/-- From PC = 0 a STEP latches VacantMemory. -/
theorem stepUnder_of_pc_eq_zero (hs : s.InvUnder p) (hf : s.fault = 0) (hpc : s.pc = 0) :
    ∃ u, stepUnder p s = .next u ∧ u.fault = 3 ∧ u.pc = 2 := by
  have hd : decode s.wordAtPc = .vacantMemory := by rw [wordAtPc_of_pc_eq_zero hs hpc]; rfl
  refine ⟨_, stepUnder_eq_next_iff.mpr (.vacant hf (by rw [hpc]; decide) hd), rfl, ?_⟩
  change s.pc + 2 = 2
  rw [hpc]
  rfl

/-- A STEP of 00EE on an empty stack under FALLBACK_ZERO. -/
theorem stepUnder_empty_ret (hs : s.InvUnder p) (hf : s.fault = 0) (hsp : s.sp = 0) (hfetch : fetch s = .ok 0x00EE)
    (hp : p.emptyRetPolicy = .fallbackZero) :
    ∃ t u, stepUnder p s = .next t ∧ t.pc = 0 ∧ t.fault = 0 ∧ stepUnder p t = .next u ∧ u.fault = 3 ∧ u.pc = 2 := by
  have hstep : stepUnder p s = .next (s.fetched.setPc 0) := by
    rw [stepUnder_of_fetch p hf hfetch rfl]
    exact execUnder_eq_next_iff.mpr (.retFallback hsp hp)
  have ht : (s.fetched.setPc 0).InvUnder p := (stepUnder_eq_next_iff.mp hstep).invUnder hs
  obtain ⟨u, hu⟩ := stepUnder_of_pc_eq_zero ht hf rfl
  exact ⟨_, u, hstep, rfl, hf, hu⟩

/-- Settles O35: the fallback goes to address 0, which the invariant keeps null; under FAULT the error latches. -/
theorem emptyReturnRunsIntoVacantMemory : Obligations.EmptyReturnRunsIntoVacantMemory := by
  constructor
  · intro s hs hf hsp hfetch
    simpa only [stepUnder_params] using stepUnder_empty_ret hs hf hsp hfetch rfl
  · refine fun p s hs hf hsp hfetch => ⟨stepUnder_empty_ret hs hf hsp hfetch, fun hp => ?_⟩
    refine ⟨raise (.stackUnderflow s.fetched.instrAddr (encode .ret)) s.fetched, ?_, rfl, rfl,
      errorKept_raise_fetched _ s, stepUnder_eq_next_iff.mpr (.latched (show (6 : BitVec 3) ≠ 0 by decide))⟩
    rw [stepUnder_of_fetch p hf hfetch rfl]
    exact execUnder_eq_next_iff.mpr (.retUnderflow hsp hp)

end Sys2Proof.Machine
end

section
/-! SUPPORT. DXYN (spec 42_display.md section 2). -/

namespace Sys2Proof.Machine

variable {s : State}

theorem collisionFlag_cases (c : Bool) : collisionFlag c = 0 ∨ collisionFlag c = 1 := by
  cases c
  · exact .inl rfl
  · exact .inr rfl

theorem collisionFlag_eq_one_iff (c : Bool) : collisionFlag c = 1 ↔ c = true := by cases c <;> decide

/-- VF after a draw says whether some bit of the sprite met a lit pixel (R175). -/
theorem withDrawn_vf_eq_one_iff (s : State) (x0 y0 : Nat) (rows : List Byte) :
    (s.withDrawn (drawSprite s.fb x0 y0 rows)).reg vf = 1 ↔
      ∃ px py, px < 64 ∧ py < 32 ∧ spriteBit rows x0 y0 px py = true ∧ pixel s.fb px py = true := by
  rw [State.withDrawn_eq, State.setReg_reg_same, collisionFlag_eq_one_iff, collide_drawSprite]

theorem pixel_withDrawn (s : State) (x0 y0 : Nat) (rows : List Byte) {px py : Nat} (hx : px < 64) (hy : py < 32) :
    pixel (s.withDrawn (drawSprite s.fb x0 y0 rows)).fb px py =
      (pixel s.fb px py ^^ spriteBit rows x0 y0 px py) := pixel_drawSprite s.fb x0 y0 rows hx hy

/-- A draw changes FB and VF alone. -/
theorem withDrawn_frame (s : State) (c : Canvas) :
    RegsKeptBut vf s (s.withDrawn c) ∧ (s.withDrawn c).pc = s.pc ∧ (s.withDrawn c).i = s.i ∧
      (s.withDrawn c).draws = s.draws ∧ StackKept s (s.withDrawn c) ∧ SystemKept s (s.withDrawn c) :=
  ⟨regsKeptBut_setReg (s.setFb c.fb) vf _, rfl, rfl, rfl, ⟨rfl, fun _ => rfl⟩, fun _ => rfl,
    ⟨rfl, rfl, fun _ => rfl⟩, rfl, rfl, rfl⟩

/-- A bit drawn with XOR meets a lit pixel exactly if it turns the pixel off. -/
theorem bit_meets_lit_iff {old new bit : Bool} (h : new = (old ^^ bit)) :
    bit = true ∧ old = true ↔ old = true ∧ new = false := by
  subst h
  cases old <;> cases bit <;> decide

/-- A bit drawn with XOR leaves a lit pixel exactly if it turns the pixel on. -/
theorem bit_leaves_lit_iff {old new bit : Bool} (h : new = (old ^^ bit)) :
    bit = true ∧ new = true ↔ old = false ∧ new = true := by
  subst h
  cases old <;> cases bit <;> decide

/-- Settles O37: the pixels and the collision of a draw are those of the detector's laws. -/
theorem drwXorsSpriteWithCollision : Obligations.DrwXorsSpriteWithCollision := by
  refine ⟨encodedAs_drw, fun x y n s hrows =>
    ⟨_, exec_eq_next_iff.mpr (.drwInside x y n hrows), fun px py hx hy => pixel_withDrawn s _ _ _ hx hy, ?_, ?_,
      withDrawn_frame s _⟩⟩
  · rw [State.withDrawn_eq, State.setReg_reg_same]
    exact collisionFlag_cases _
  · rw [withDrawn_vf_eq_one_iff]
    refine exists_congr fun px => exists_congr fun py => and_congr_right fun hx => and_congr_right fun hy => ?_
    exact bit_meets_lit_iff (pixel_withDrawn s _ _ _ hx hy)

/-- Settles O38: the fault of the first row above 0xFFF is one error entry, and that row is unique. -/
theorem drwOutsideMemoryFaults : Obligations.DrwOutsideMemoryFaults := by
  intro x y n s ⟨r, hr, hout⟩
  obtain ⟨t, ht⟩ := exists_answers_drw Config.params x y n s
  have hexec := exec_eq_next_iff.mpr ht
  cases ht with
  | drwInside _ _ _ hrows => exact absurd (hrows r hr) (by omega)
  | drwFault _ _ _ q hq hqout hqin =>
    exact ⟨_, _, hexec, rfl, rfl, rfl, rfl, errorKept_raise _ s, ⟨q, hq, rfl, hqout, hqin⟩,
      fun hi => add_row_eq hi hqout hqin⟩

/-- The sprite a state draws for given operands. -/
def State.drawn (s : State) (x y : Reg) (n : Nat) : State :=
  s.withDrawn (drawSprite s.fb (startColumn s x) (startRow s y) (spriteRows s n))

/-- The first draw moves neither the coordinates, since X and Y are not VF, nor the sprite. -/
theorem drawn_twice_eq {x y : Reg} (n : Nat) (hx : x ≠ vf) (hy : y ≠ vf) :
    (s.drawn x y n).drawn x y n = (s.drawn x y n).withDrawn
      (drawSprite (s.drawn x y n).fb (startColumn s x) (startRow s y) (spriteRows s n)) := by
  have hreg : ∀ z, z ≠ vf → (s.drawn x y n).reg z = s.reg z := (withDrawn_frame s _).1
  have hcol : startColumn (s.drawn x y n) x = startColumn s x := by rw [startColumn, hreg x hx, startColumn]
  have hrow : startRow (s.drawn x y n) y = startRow s y := by rw [startRow, hreg y hy, startRow]
  rw [State.drawn, hcol, hrow]
  rfl

/-- Settles O39: the second draw XORs the same bits, and it meets the pixels that the first one turned on. -/
theorem drawingTwiceRestoresScreen : Obligations.DrawingTwiceRestoresScreen := by
  intro x y n s hx hy hrows
  refine ⟨s.drawn x y n, (s.drawn x y n).drawn x y n, exec_eq_next_iff.mpr (.drwInside x y n hrows),
    exec_eq_next_iff.mpr (.drwInside x y n hrows), fun px py => ?_, ?_⟩
  · by_cases hin : px < 64 ∧ py < 32
    · rw [drawn_twice_eq n hx hy, pixel_withDrawn _ _ _ _ hin.1 hin.2, State.drawn,
        pixel_withDrawn _ _ _ _ hin.1 hin.2, Bool.xor_assoc, Bool.xor_self, Bool.xor_false]
    · rw [pixel_outside hin, pixel_outside hin]
  · rw [drawn_twice_eq n hx hy, withDrawn_vf_eq_one_iff]
    refine exists_congr fun px => exists_congr fun py => and_congr_right fun hpx => and_congr_right fun hpy => ?_
    exact bit_leaves_lit_iff (pixel_withDrawn s _ _ _ hpx hpy)

end Sys2Proof.Machine
end

section
/-! SUPPORT. The host's operations and sessions (spec 43_host_interface.md, 60_exceptions.md sections 3, 6 and 7,
70_reset_and_hazards.md section 1) and the round trip of 7XNN (40_alu.md section 2). -/

namespace Sys2Proof.Machine

variable {p : Params} {s t u : State} {o : HostOp} {r : HostResult}

/-! ### STEP and STATUS -/

theorem performUnder_step (h : StepsTo p s t) : performUnder p .step s = .next (t, .status t.fault) :=
  withResult_eq_next_iff.mpr ⟨h.stepUnder_eq, rfl⟩

theorem perform_step_of_stepsTo (h : StepsTo Config.params s t) : perform .step s = .next (t, .status t.fault) :=
  performUnder_step h

/-- Settles O59: every STEP has an answer, and the operation pairs it with its FAULT. -/
theorem stepAndStatusReturnTheFaultCode : Obligations.StepAndStatusReturnTheFaultCode := by
  refine ⟨fun s => ?_, fun s t h => perform_step_of_stepsTo (step_eq_next_iff.mp h), fun p s => ⟨?_, rfl⟩⟩
  · obtain ⟨t, ht⟩ := exists_stepsTo Config.params s
    exact ⟨t, step_eq_next_iff.mpr ht, perform_step_of_stepsTo ht, rfl⟩
  · obtain ⟨t, ht⟩ := exists_stepsTo p s
    exact ⟨t, ht.stepUnder_eq, performUnder_step ht⟩

/-! ### LOAD and KEY, the two that can be refused -/

theorem perform_load_refused (image : List Byte) (h : s.loadable = false ∨ s.fault ≠ 0) :
    perform (.load image) s = .refused .loadNotAccepted := by
  have hno : ¬(s.loadable = true ∧ s.fault = 0) := fun ⟨hload, hf⟩ =>
    h.elim (fun h => Bool.false_ne_true (h.symm.trans hload)) fun h => h hf
  rw [perform_load, hostLoad, if_neg hno, withResult]

theorem perform_load_accepted (image : List Byte) (hload : s.loadable = true) (hf : s.fault = 0) :
    perform (.load image) s = .next (loadImage image s, .status (loadImage image s).fault) := by
  rw [perform_load, hostLoad, if_pos ⟨hload, hf⟩, withResult]

theorem perform_key_of_lt {k : Nat} (b : Bool) (hk : k < 16) :
    perform (.key k b) s = .next ({ s with key := s.key.set k b hk }, .none) := by
  rw [perform_key, hostKey, dif_pos hk, withResult]

theorem perform_key_refused {k : Nat} (b : Bool) (hk : 16 ≤ k) :
    perform (.key k b) s = .refused (.keyIndexOutOfRange k) := by
  rw [perform_key, hostKey, dif_neg (by omega), withResult]

/-- Settles O14: each operation by its own answer. -/
theorem onlyLoadAndKeyAreRefused : Obligations.OnlyLoadAndKeyAreRefused := by
  refine ⟨fun s => (exists_stepsTo Config.params s).imp fun t ht => step_eq_next_iff.mpr ht, fun o s => ?_⟩
  cases o with
  | load image =>
    by_cases hacc : s.loadable = true ∧ s.fault = 0
    · exact .inl ⟨_, _, perform_load_accepted image hacc.1 hacc.2⟩
    · have hno : s.loadable = false ∨ s.fault ≠ 0 := by
        rw [← Bool.not_eq_true, ← not_and_or]
        exact hacc
      exact .inr (.inl ⟨image, rfl, hno, perform_load_refused image hno⟩)
  | key k b =>
    rcases Nat.lt_or_ge k 16 with hk | hk
    · exact .inl ⟨_, _, perform_key_of_lt b hk⟩
    · exact .inr (.inr ⟨k, b, rfl, hk, perform_key_refused b hk⟩)
  | step =>
    obtain ⟨t, ht⟩ := exists_stepsTo Config.params s
    exact .inl ⟨t, _, perform_step_of_stepsTo ht⟩
  | reset | timerTick | fbRead | status => exact .inl ⟨_, _, rfl⟩

/-- No operation but RESET changes a latched FAULT (R216). -/
theorem Performs.fault_eq (hf : s.fault ≠ 0) (ho : o ≠ .reset) (h : Performs p s o t) : t.fault = s.fault := by
  cases h with
  | reset => exact absurd rfl ho
  | load _ _ h0 | loadTooLong _ _ h0 => exact absurd h0 hf
  | step h =>
    cases h with
    | latched => rfl
    | fetchAbove h0 | fetchEdge h0 | vacant h0 | unknown h0 | instr h0 => exact absurd h0 hf
  | timerTick | key | fbRead | status => rfl

/-- Settles O11: the latch is the first case of a STEP, and only RESET, whose answer is the reset state, clears FAULT. -/
theorem latchedErrorMakesStepInert : Obligations.LatchedErrorMakesStepInert := fun s hf =>
  ⟨perform_step_of_stepsTo (.latched hf), fun image => perform_load_refused image (.inr hf),
    fun _ _ => ⟨_, rfl⟩, fun _ b hk => ⟨_, perform_key_of_lt b hk⟩, rfl, rfl,
    fun _ _ _ ho h => (performs_of_perform h).fault_eq hf ho, _, perform_reset s, rfl⟩

/-- A STEP with no error latched leaves LOADABLE = 0 (R36). -/
theorem StepsTo.loadable_eq (hf : s.fault = 0) (h : StepsTo p s t) : t.loadable = false := by
  cases h with
  | latched h => exact absurd hf h
  | instr _ _ _ h =>
    obtain ⟨-, -, -, -, hload⟩ := h.hostState_eq
    exact hload
  | _ => rfl

/-- Settles O54: a LOAD is refused by its guard, and an accepted one, like a STEP, starts by closing LOADABLE. -/
theorem loadIsAcceptedOnlyOnce : Obligations.LoadIsAcceptedOnlyOnce := by
  refine ⟨fun s image h => perform_load_refused image (.inl h), fun s t image r h => ?_,
    fun s t hf h => (step_eq_next_iff.mp h).loadable_eq hf⟩
  cases performs_of_perform h with
  | load | loadTooLong => rfl

/-- A LOAD of an image that fits copies it and returns 0 (R191). -/
theorem perform_load_of_le {image : List Byte} (hload : s.loadable = true) (hf : s.fault = 0)
    (hlen : image.length ≤ maxImage) : perform (.load image) s =
      .next ({ s.closeLoad with mem := Memory.writeBytes s.mem loadBase image }, .status 0) := by
  have himage : loadImage image s = { s.closeLoad with mem := Memory.writeBytes s.mem loadBase image } :=
    if_neg (Nat.not_lt.mpr hlen)
  rw [perform_load_accepted image hload hf, himage, ← hf]
  rfl

/-- A longer image raises LoadingError (R191). -/
theorem perform_load_of_lt {image : List Byte} (hload : s.loadable = true) (hf : s.fault = 0)
    (hlen : maxImage < image.length) : perform (.load image) s =
      .next (raise (.loadingError image.length) s.closeLoad, .status 2) := by
  have himage : loadImage image s = raise (.loadingError image.length) s.closeLoad := if_pos hlen
  rw [perform_load_accepted image hload hf, himage]
  rfl

/-- Settles O53: an image that fits lies inside the memory, so it is read back; a longer one is one error entry. -/
theorem loadCopiesImageOrFails : Obligations.LoadCopiesImageOrFails := by
  refine fun s image hload hf hwf => ⟨fun hlen => ?_, fun hlen => ?_⟩
  · have hfit : loadBase + image.length ≤ memorySize := by unfold loadBase memorySize; omega
    exact ⟨_, perform_load_of_le hload hf hlen, Memory.read_writeBytes_inside hwf hfit,
      fun a => Memory.read_writeBytes_outside, rfl⟩
  · exact ⟨_, perform_load_of_lt hload hf hlen, rfl, rfl, rfl, rfl, errorKept_raise_closeLoad _ s, rfl⟩

/-- Settles O56: the key state is a vector of 16, and one entry of it is set. -/
theorem keySetsOneKey : Obligations.KeySetsOneKey := by
  refine ⟨fun k b s => ⟨_, perform_key_of_lt b k.isLt, ?_, fun j hj => ?_, rfl⟩, fun k b s => perform_key_refused b⟩
  · exact Vector.getElem_set_self k.isLt
  · exact Vector.getElem_set_ne k.isLt j.isLt (fun h => hj (Fin.ext h.symm))

/-! ### RESET, and what the parameters reach -/

/-- Settles O52: the memory after RESET is `read_fontMemory`, every other element is the reset state's. -/
theorem resetGivesEveryElementItsValue : Obligations.ResetGivesEveryElementItsValue := by
  refine ⟨perform_reset, rfl, rfl, fun p s => ⟨_, rfl, fun k hk => ?_, fun a ha => ?_, fun x => ?_, rfl, rfl, rfl,
    fun k => ?_, rfl, rfl, pixel_blankScreen, fun k => ?_, rfl, rfl⟩⟩
  · change Memory.read (fontMemory p.font) (0x050 + k) = p.font[k]
    rw [read_fontMemory, fontAt, if_pos (by unfold fontBase; omega), show 0x050 + k - fontBase = k from
      Nat.add_sub_cancel_left 0x050 k, List.getD_eq_getElem _ _ (by simpa using hk), Vector.getElem_toList]
  · change Memory.read (fontMemory p.font) a = 0
    rw [read_fontMemory, fontAt_outside _ ha]
  · exact Vector.getElem_replicate x.isLt
  · exact Vector.getElem_replicate k.isLt
  · exact Vector.getElem_replicate k.isLt

/-- 00EE with entries, and every instruction but CXNN, answers the same for all parameters. -/
theorem execUnder_eq_exec_of_pop {i : Instr} (hret : i = .ret → 0 < s.sp) (hrnd : ∀ x nn, i ≠ .rnd x nn) :
    execUnder p i s = exec i s := by
  rcases execUnder_cases p i s with h | ⟨hi, hsp, -⟩ | ⟨x, nn, hi, -⟩
  · exact h
  · exact absurd (hret hi) (by omega)
  · exact absurd hi (hrnd x nn)

/-- Settles O60: what each parameter reaches is `execUnder_cases`; the other host operations take none. -/
theorem parametersGiveThisHardware : Obligations.ParametersGiveThisHardware := by
  refine ⟨rfl, rfl, rfl, rfl, rfl, execUnder_params, stepUnder_params, resetUnder_params,
    fun p i s => execUnder_eq_exec_of_pop, fun p o s hreset hstep htick => ?_⟩
  cases o with
  | reset => exact absurd rfl hreset
  | step => exact absurd rfl hstep
  | timerTick d e => exact absurd rfl (htick d e)
  | load | key | fbRead | status => rfl

/-! ### The timers -/

/-- Settles O55: a positive byte is lowered without a borrow; the rest is the operation's definition. -/
theorem timerTickCountsDown : Obligations.TimerTickCountsDown := by
  refine ⟨fun u b hb => ?_, rfl, rfl, fun _ _ _ => rfl, fun _ _ _ _ => rfl, fun _ _ _ _ => ⟨rfl, rfl, rfl⟩⟩
  have hdown : countdown u b = b - 1 := if_pos hb
  have hlt := b.isLt
  rw [hdown, BitVec.toNat_sub, show (1 : Byte).toNat = 1 from rfl]
  omega

/-- What RESET establishes and every host operation keeps holds in every state that a session reaches. -/
theorem ReachableUnder.induction {P : State → Prop} (hreset : P (State.resetUnder p))
    (hop : ∀ {s t o}, P s → Performs p s o t → P t) (h : ReachableUnder p s) : P s := by
  obtain ⟨ops, hops⟩ := h
  generalize State.resetUnder p = s0 at hreset hops
  induction ops generalizing s0 with
  | nil =>
    cases hops
    exact hreset
  | cons o ops ih =>
    unfold performAllUnder at hops
    split at hops
    · next h => exact ih _ (hop hreset (performs_of_performUnder h)) hops
    · cases hops
    · cases hops

theorem ite_countdown_saturate_eq_zero {b : Byte} (c : Bool) (hb : b = 0) :
    (if c then countdown .saturate b else b) = 0 := by
  subst hb
  cases c <;> rfl

theorem TimersZero.tick (h : TimersZero s) (d e : Bool) : TimersZero (tickUnder .saturate d e s) :=
  ⟨ite_countdown_saturate_eq_zero d h.1, ite_countdown_saturate_eq_zero e h.2⟩

/-- Under SATURATE every host operation keeps both timers at 0 (R227). -/
theorem Performs.timersZero (hp : p.timerUnderflow = .saturate) (hs : TimersZero s) (h : Performs p s o t) :
    TimersZero t := by
  cases h with
  | reset => exact ⟨rfl, rfl⟩
  | step h =>
    obtain ⟨-, hdt, hst, -⟩ := h.hostState_eq
    exact ⟨hdt.trans hs.1, hst.trans hs.2⟩
  | timerTick d e =>
    rw [hp]
    exact hs.tick d e
  | load | loadTooLong | key | fbRead | status => exact hs

theorem timersZero_of_reachableUnder (hp : p.timerUnderflow = .saturate) (h : ReachableUnder p s) : TimersZero s :=
  h.induction (P := TimersZero) ⟨rfl, rfl⟩ fun hs h => h.timersZero hp hs

/-- Settles O51: under WRAP one TIMER_TICK after RESET shows the difference. -/
theorem timersAreZeroInEverySession : Obligations.TimersAreZeroInEverySession := by
  refine ⟨fun s ⟨ops, hops⟩ => ?_, fun p s => timersZero_of_reachableUnder, fun p hp => ?_⟩
  · refine timersZero_of_reachableUnder (p := Config.params) rfl ⟨ops, ?_⟩
    rw [resetUnder_params]
    exact hops
  · refine ⟨_, ⟨[.timerTick true true], rfl⟩, ?_⟩
    rw [hp]
    exact ⟨rfl, rfl⟩

/-! ### The halt loop -/

/-- The two bytes that the halt loop asks for at PC make the word 1NNN with the low bits of PC as NNN. -/
theorem wordOfBytes_halt (a : Word) :
    wordOfBytes (0x10#8 ||| (a.extractLsb' 8 4).zeroExtend 8) (a.extractLsb' 0 8) = encode (.jp (a.setWidth 12)) := by
  apply BitVec.eq_of_getLsbD_eq
  intro k hk
  simp only [wordOfBytes, encode, wordNNN, BitVec.getLsbD_append, BitVec.getLsbD_or, BitVec.truncate_eq_setWidth,
    BitVec.getLsbD_setWidth, BitVec.getLsbD_extractLsb']
  interval_cases k <;> simp

/-- A fetchable PC is a 12-bit address. -/
theorem addrOperand_setWidth {a : Word} (h : a.toNat ≤ 0xFFE) : addrOperand (a.setWidth 12) = a := by
  apply BitVec.eq_of_toNat_eq
  rw [addrOperand_toNat, BitVec.toNat_setWidth]
  omega

/-- Settles O58: the jump writes the PC that the state had, and LOADABLE was 0 already. -/
theorem haltLoopRepeatsForever : Obligations.HaltLoopRepeatsForever := by
  intro s ⟨hf, hpc, hhi, hlo⟩ hload
  have hd : decode s.wordAtPc = .instr (.jp (s.pc.setWidth 12)) := by
    rw [State.wordAtPc, hhi, hlo, wordOfBytes_halt, decode_encode rfl]
  have hback : s.fetched.setPc (addrOperand (s.pc.setWidth 12)) = s := by
    rw [addrOperand_setWidth hpc]
    cases s
    subst hload
    rfl
  rw [← stepUnder_params, stepUnder_of_decode _ hf hpc hd, execUnder_eq_next_iff.mpr (.jp _), hback]

/-! ### 7XNN and back -/

/-- Settles O17: the second sum takes V[X] back, and the other registers are never written. -/
theorem addImmRoundTrip : Obligations.AddImmRoundTrip := by
  intro x nn mm s hmm
  refine ⟨_, _, exec_addImm x nn s, exec_addImm x mm _, fun y => ?_, onlyRegsDiffer_setReg _ x _⟩
  have hsum : s.reg x + nn + mm = s.reg x := by
    apply BitVec.eq_of_toNat_eq
    have hx := (s.reg x).isLt
    have hnn := nn.isLt
    rw [BitVec.toNat_add, BitVec.toNat_add]
    omega
  by_cases hy : y = x
  · rw [hy, State.setReg_reg_same, State.setReg_reg_same, hsum]
  · rw [State.setReg_reg_ne _ _ hy, State.setReg_reg_ne _ _ hy]

end Sys2Proof.Machine
end
